-- ==== Sys2Proof/Word.lean ====
section
/-! DEFINITION. The word types of the block (spec/10_state.md R17, spec/30_encoding.md R56). -/

namespace Sys2Proof

/-- One memory byte, one general register, one timer, one `kk` immediate (R17, R56). -/
abbrev Byte := BitVec 8

/-- I, PC, a stack slot, an instruction word (R17, R55). -/
abbrev Word := BitVec 16

/-- A 12-bit address immediate `nnn` (R56). -/
abbrev Addr12 := BitVec 12

/-- A general register number, an `x` or `y` field (R19, R56): each of the 16 values names a register. -/
abbrev RegIx := Fin 16

/-- A sprite's row count `n` (R56, R58). -/
abbrev RowCount := Fin 16

/-- VF, register 0xF (R21). -/
abbrev VF : RegIx := 15

/-- Zero-extension to 16 bits, `zext_16` of R7. -/
abbrev zext16 {n : Nat} (b : BitVec n) : Word := b.zeroExtend 16

end Sys2Proof
end

