-- ==== Sys2Proof/Syntax.lean ====
section
/-! DEFINITION. The 34 instructions, one constructor per row of spec/opcode_table.json (spec/30_encoding.md R60),
in the table's order. Each operand has the type of its field (R56, R58), so every value is well-formed. -/

namespace Sys2Proof

inductive Instr where
  /-- ANNN `LD I, nnn` (R74). -/
  | ldI (nnn : Addr12)
  /-- 00E0 `CLS` (R103). -/
  | cls
  /-- 00EE `RET` (R80). -/
  | ret
  /-- 1NNN `JP nnn` (R81). -/
  | jp (nnn : Addr12)
  /-- 2NNN `CALL nnn` (R82). -/
  | call (nnn : Addr12)
  /-- 3XKK `SE Vx, kk` (R83). -/
  | seImm (x : RegIx) (kk : Byte)
  /-- 4XKK `SNE Vx, kk` (R84). -/
  | sneImm (x : RegIx) (kk : Byte)
  /-- 5XY0 `SE Vx, Vy` (R85). -/
  | seReg (x y : RegIx)
  /-- 9XY0 `SNE Vx, Vy` (R86). -/
  | sneReg (x y : RegIx)
  /-- 6XKK `LD Vx, kk` (R75). -/
  | ldImm (x : RegIx) (kk : Byte)
  /-- 7XKK `ADD Vx, kk` (R76). -/
  | addImm (x : RegIx) (kk : Byte)
  /-- 8XY0 `LD Vx, Vy` (R89). -/
  | ldReg (x y : RegIx)
  /-- 8XY1 `OR Vx, Vy` (R90). -/
  | orReg (x y : RegIx)
  /-- 8XY2 `AND Vx, Vy` (R91). -/
  | andReg (x y : RegIx)
  /-- 8XY3 `XOR Vx, Vy` (R92). -/
  | xorReg (x y : RegIx)
  /-- 8XY4 `ADD Vx, Vy` (R93). -/
  | addReg (x y : RegIx)
  /-- 8XY5 `SUB Vx, Vy` (R94). -/
  | sub (x y : RegIx)
  /-- 8XY6 `SHR Vx, Vy` (R95). -/
  | shr (x y : RegIx)
  /-- 8XY7 `SUBN Vx, Vy` (R96). -/
  | subn (x y : RegIx)
  /-- 8XYE `SHL Vx, Vy` (R97). -/
  | shl (x y : RegIx)
  /-- BNNN `JP V0, nnn` (R87). -/
  | jpV0 (nnn : Addr12)
  /-- CXKK `RND Vx, kk` (R77). -/
  | rnd (x : RegIx) (kk : Byte)
  /-- DXYN `DRW Vx, Vy, n` (R104). -/
  | drw (x y : RegIx) (n : RowCount)
  /-- EX9E `SKP Vx` (R112). -/
  | skp (x : RegIx)
  /-- EXA1 `SKNP Vx` (R113). -/
  | sknp (x : RegIx)
  /-- FX07 `LD Vx, DT` (R115). -/
  | ldVxDt (x : RegIx)
  /-- FX0A `LD Vx, K` (R114). -/
  | ldVxK (x : RegIx)
  /-- FX15 `LD DT, Vx` (R116). -/
  | ldDtVx (x : RegIx)
  /-- FX18 `LD ST, Vx` (R117). -/
  | ldStVx (x : RegIx)
  /-- FX1E `ADD I, Vx` (R118). -/
  | addIVx (x : RegIx)
  /-- FX29 `LD F, Vx` (R119). -/
  | ldFVx (x : RegIx)
  /-- FX33 `LD B, Vx` (R120). -/
  | ldBVx (x : RegIx)
  /-- FX55 `LD [I], Vx` (R121). -/
  | ldMemVx (x : RegIx)
  /-- FX65 `LD Vx, [I]` (R122). -/
  | ldVxMem (x : RegIx)
deriving DecidableEq, Repr

end Sys2Proof
end

