-- ==== Sys2Proof/Decode.lean ====
section
/-! DEFINITION. The decoder, total on any bytes and rejecting by name (spec/30_encoding.md R55 to R62), and the
encoder, written from the six formats of R57 and the patterns of R60. The bit patterns are PRESUMED (log entry 4),
unsafe: the spec takes them from general knowledge (G1, D1). -/

namespace Sys2Proof

/-- Why bytes are no instruction. -/
inductive DecodeError where
  /-- The word matches no row of the table (R61). -/
  | unknown (w : Word)
  /-- Fewer than two bytes: no instruction word can be read (R55). -/
  | truncated
deriving DecidableEq, Repr

/-! ### Fields (R56) -/

/-- `op = w[15:12]`. -/
def fieldOp (w : Word) : BitVec 4 := w.extractLsb' 12 4

/-- `x = w[11:8]`. -/
def fieldX (w : Word) : RegIx := (w.extractLsb' 8 4).toFin

/-- `y = w[7:4]`. -/
def fieldY (w : Word) : RegIx := (w.extractLsb' 4 4).toFin

/-- `n = w[3:0]`. -/
def fieldN (w : Word) : BitVec 4 := w.extractLsb' 0 4

/-- `kk = w[7:0]`. -/
def fieldKK (w : Word) : Byte := w.extractLsb' 0 8

/-- `nnn = w[11:0]`. -/
def fieldNNN (w : Word) : Addr12 := w.extractLsb' 0 12

/-! ### The decoder (R59) -/

/-- Group 0, discriminated by the full word. -/
def decodeGroup0 (w : Word) : Except DecodeError Instr :=
  if w = 0x00E0#16 then .ok .cls
  else if w = 0x00EE#16 then .ok .ret
  else .error (.unknown w)

/-- Group 5: `n` must be 0. -/
def decodeGroup5 (w : Word) : Except DecodeError Instr :=
  if fieldN w = 0x0#4 then .ok (.seReg (fieldX w) (fieldY w)) else .error (.unknown w)

/-- Group 8, discriminated by the low nibble. -/
def decodeGroup8 (w : Word) : Except DecodeError Instr :=
  match fieldN w with
  | 0x0#4 => .ok (.ldReg (fieldX w) (fieldY w))
  | 0x1#4 => .ok (.orReg (fieldX w) (fieldY w))
  | 0x2#4 => .ok (.andReg (fieldX w) (fieldY w))
  | 0x3#4 => .ok (.xorReg (fieldX w) (fieldY w))
  | 0x4#4 => .ok (.addReg (fieldX w) (fieldY w))
  | 0x5#4 => .ok (.sub (fieldX w) (fieldY w))
  | 0x6#4 => .ok (.shr (fieldX w) (fieldY w))
  | 0x7#4 => .ok (.subn (fieldX w) (fieldY w))
  | 0xE#4 => .ok (.shl (fieldX w) (fieldY w))
  | _     => .error (.unknown w)

/-- Group 9: `n` must be 0. -/
def decodeGroup9 (w : Word) : Except DecodeError Instr :=
  if fieldN w = 0x0#4 then .ok (.sneReg (fieldX w) (fieldY w)) else .error (.unknown w)

/-- Group E, discriminated by the low byte. -/
def decodeGroupE (w : Word) : Except DecodeError Instr :=
  if fieldKK w = 0x9E#8 then .ok (.skp (fieldX w))
  else if fieldKK w = 0xA1#8 then .ok (.sknp (fieldX w))
  else .error (.unknown w)

/-- Group F, discriminated by the low byte. -/
def decodeGroupF (w : Word) : Except DecodeError Instr :=
  if fieldKK w = 0x07#8 then .ok (.ldVxDt (fieldX w))
  else if fieldKK w = 0x0A#8 then .ok (.ldVxK (fieldX w))
  else if fieldKK w = 0x15#8 then .ok (.ldDtVx (fieldX w))
  else if fieldKK w = 0x18#8 then .ok (.ldStVx (fieldX w))
  else if fieldKK w = 0x1E#8 then .ok (.addIVx (fieldX w))
  else if fieldKK w = 0x29#8 then .ok (.ldFVx (fieldX w))
  else if fieldKK w = 0x33#8 then .ok (.ldBVx (fieldX w))
  else if fieldKK w = 0x55#8 then .ok (.ldMemVx (fieldX w))
  else if fieldKK w = 0x65#8 then .ok (.ldVxMem (fieldX w))
  else .error (.unknown w)

/-- `decode(w)` of R59: a function of the word alone. -/
def decode (w : Word) : Except DecodeError Instr :=
  match fieldOp w with
  | 0x0#4 => decodeGroup0 w
  | 0x1#4 => .ok (.jp (fieldNNN w))
  | 0x2#4 => .ok (.call (fieldNNN w))
  | 0x3#4 => .ok (.seImm (fieldX w) (fieldKK w))
  | 0x4#4 => .ok (.sneImm (fieldX w) (fieldKK w))
  | 0x5#4 => decodeGroup5 w
  | 0x6#4 => .ok (.ldImm (fieldX w) (fieldKK w))
  | 0x7#4 => .ok (.addImm (fieldX w) (fieldKK w))
  | 0x8#4 => decodeGroup8 w
  | 0x9#4 => decodeGroup9 w
  | 0xA#4 => .ok (.ldI (fieldNNN w))
  | 0xB#4 => .ok (.jpV0 (fieldNNN w))
  | 0xC#4 => .ok (.rnd (fieldX w) (fieldKK w))
  | 0xD#4 => .ok (.drw (fieldX w) (fieldY w) (fieldN w).toFin)
  | 0xE#4 => decodeGroupE w
  | _     => decodeGroupF w   -- 0xF

/-- Bytes to a word, high byte first (spec/20_memory.md R46). -/
def wordOfBytes (hi lo : Byte) : Word := hi ++ lo

/-- A word's high byte, the one at the lower address (R46). -/
def highByte (w : Word) : Byte := w.extractLsb' 8 8

/-- A word's low byte. -/
def lowByte (w : Word) : Byte := w.extractLsb' 0 8

/-- Decode the instruction at the head of a byte sequence, and give the bytes after it (R55). -/
def decodeBytes : List Byte → Except DecodeError (Instr × List Byte)
  | hi :: lo :: rest =>
    match decode (wordOfBytes hi lo) with
    | .ok i    => .ok (i, rest)
    | .error e => .error e
  | _ => .error .truncated

/-! ### The encoder (R57, R60) -/

/-- Format NNN: `oooo nnnn nnnn nnnn`. -/
def formatNNN (op : BitVec 4) (nnn : Addr12) : Word := op ++ nnn

/-- Format XKK: `oooo xxxx kkkk kkkk`. -/
def formatXKK (op : BitVec 4) (x : RegIx) (kk : Byte) : Word := op ++ (BitVec.ofFin x : BitVec 4) ++ kk

/-- Formats XY and XYN: `oooo xxxx yyyy ffff`, `oooo xxxx yyyy nnnn`. -/
def formatXYN (op : BitVec 4) (x y : RegIx) (n : BitVec 4) : Word :=
  op ++ (BitVec.ofFin x : BitVec 4) ++ (BitVec.ofFin y : BitVec 4) ++ n

/-- The word of an instruction. Formats FULL and X are the fixed words and XKK with a fixed low byte. -/
def encode : Instr → Word
  | .ldI nnn      => formatNNN 0xA#4 nnn
  | .cls          => 0x00E0#16
  | .ret          => 0x00EE#16
  | .jp nnn       => formatNNN 0x1#4 nnn
  | .call nnn     => formatNNN 0x2#4 nnn
  | .seImm x kk   => formatXKK 0x3#4 x kk
  | .sneImm x kk  => formatXKK 0x4#4 x kk
  | .seReg x y    => formatXYN 0x5#4 x y 0x0#4
  | .sneReg x y   => formatXYN 0x9#4 x y 0x0#4
  | .ldImm x kk   => formatXKK 0x6#4 x kk
  | .addImm x kk  => formatXKK 0x7#4 x kk
  | .ldReg x y    => formatXYN 0x8#4 x y 0x0#4
  | .orReg x y    => formatXYN 0x8#4 x y 0x1#4
  | .andReg x y   => formatXYN 0x8#4 x y 0x2#4
  | .xorReg x y   => formatXYN 0x8#4 x y 0x3#4
  | .addReg x y   => formatXYN 0x8#4 x y 0x4#4
  | .sub x y      => formatXYN 0x8#4 x y 0x5#4
  | .shr x y      => formatXYN 0x8#4 x y 0x6#4
  | .subn x y     => formatXYN 0x8#4 x y 0x7#4
  | .shl x y      => formatXYN 0x8#4 x y 0xE#4
  | .jpV0 nnn     => formatNNN 0xB#4 nnn
  | .rnd x kk     => formatXKK 0xC#4 x kk
  | .drw x y n    => formatXYN 0xD#4 x y (BitVec.ofFin n)
  | .skp x        => formatXKK 0xE#4 x 0x9E#8
  | .sknp x       => formatXKK 0xE#4 x 0xA1#8
  | .ldVxDt x     => formatXKK 0xF#4 x 0x07#8
  | .ldVxK x      => formatXKK 0xF#4 x 0x0A#8
  | .ldDtVx x     => formatXKK 0xF#4 x 0x15#8
  | .ldStVx x     => formatXKK 0xF#4 x 0x18#8
  | .addIVx x     => formatXKK 0xF#4 x 0x1E#8
  | .ldFVx x      => formatXKK 0xF#4 x 0x29#8
  | .ldBVx x      => formatXKK 0xF#4 x 0x33#8
  | .ldMemVx x    => formatXKK 0xF#4 x 0x55#8
  | .ldVxMem x    => formatXKK 0xF#4 x 0x65#8

/-- The bytes of an instruction in address order (R46). -/
def encodeBytes (i : Instr) : List Byte := [highByte (encode i), lowByte (encode i)]

/-! ### The host's question about one table row -/

/-- The word the host names by `nbits` and `w` as opcode_table.json numbers bits: every instruction is one 16-bit word
(R55), so the numbering is the word's own; bits at `nbits` and above are 0. -/
def tableWord (nbits w : Nat) : Word := BitVec.ofNat 16 (w % 2 ^ nbits)

/-- The instruction the decoder reads from that word's bytes. -/
def decodeTableWord (nbits w : Nat) : Option Instr :=
  match decodeBytes [highByte (tableWord nbits w), lowByte (tableWord nbits w)] with
  | .ok (i, _) => some i
  | .error _   => none

end Sys2Proof
end

