-- ==== Sys2Proof/Config.lean ====
section
/-! DEFINITION. The block's parameters (spec/00_scope.md R5) and the one free value. -/

namespace Sys2Proof.Config

/-- MEM_SIZE (R5): addresses 0 .. 0xFFF. -/
abbrev memSize : Nat := 0x1000

/-- LOAD_ADDR (R5): the reset PC and the program load offset. -/
abbrev loadAddr : Nat := 0x200

/-- The longest image LOAD takes, 0x1000 - 0x200 (R40). -/
abbrev maxImage : Nat := 0xE00

/-- STACK_DEPTH (R5). -/
abbrev stackDepth : Nat := 16

/-- FB_W (R5). -/
abbrev fbWidth : Nat := 64

/-- FB_H (R5). -/
abbrev fbHeight : Nat := 32

/-- FONT_SIZE (R5): 16 glyphs of 5 bytes. -/
abbrev fontSize : Nat := 80

/-- A value of the FONT parameter (R5, R38), `Fin 80 → UInt8` as plain data. -/
abbrev Font := Vector Byte fontSize

/-- The random byte of the `k`-th execution of CXKK (R5 row RNG, R65, R77): a free value under no law.
DESIGN CHOICE (log entry 1), safe: it has no body, so no proof can see what it is. -/
opaque freeByte : Nat → Byte

end Sys2Proof.Config
end

