-- ==== Sys2Proof/Machine/Font.lean ====
section
/-! DEFINITION. The default font table, and the reset contents of memory under any font (spec/20_memory.md R37 to
R39). -/

namespace Sys2Proof.Machine

/-- The default value of the FONT parameter (R38), 16 glyphs of 5 rows. PRESUMED (log entry 3), unsafe: the spec takes
these bytes from general knowledge (G2, D24). -/
def defaultFont : Config.Font where
  toArray := List.toArray (
    [0xF0, 0x90, 0x90, 0x90, 0xF0,  0x20, 0x60, 0x20, 0x20, 0x70,
     0xF0, 0x10, 0xF0, 0x80, 0xF0,  0xF0, 0x10, 0xF0, 0x10, 0xF0] ++
    [0x90, 0x90, 0xF0, 0x10, 0x10,  0xF0, 0x80, 0xF0, 0x10, 0xF0,
     0xF0, 0x80, 0xF0, 0x90, 0xF0,  0xF0, 0x10, 0x20, 0x40, 0x40] ++
    [0xF0, 0x90, 0xF0, 0x90, 0xF0,  0xF0, 0x90, 0xF0, 0x10, 0xF0,
     0xF0, 0x90, 0xF0, 0x90, 0x90,  0xE0, 0x90, 0xE0, 0x90, 0xE0] ++
    [0xF0, 0x80, 0x80, 0x80, 0xF0,  0xE0, 0x90, 0x90, 0x90, 0xE0,
     0xF0, 0x80, 0xF0, 0x80, 0xF0,  0xF0, 0x80, 0xF0, 0x80, 0x80] : List Byte)
  size_toArray := rfl

/-- What the memory byte at `a` holds after a memory reset (R39): FONT at 0x000..0x04F, zero elsewhere. It is also
what an address that `State.mem` does not list reads as. DEDUCED (log entry 6), safe. -/
def resetByte (font : Config.Font) (a : Nat) : Byte := if h : a < Config.fontSize then font[a] else 0

end Sys2Proof.Machine
end

