-- ==== Sys2Proof/Machine/State.lean ====
section
/-! DEFINITION. The state of the block as plain data (spec/10_state.md R17), the reasons a step can stop, and the
machine after reset (spec/70_reset_and_hazards.md R141), under any font. -/

namespace Sys2Proof.Machine

/-- MEM (R27), as the list of (address, byte) pairs whose byte differs from the reset contents, addresses strictly
rising (`Memory.wf`); an address that is not listed reads as `resetByte` of the font (log entry 6). -/
abbrev Memory := List Host.Cell

/-- FB (R28): 32 rows of 64 one-bit cells; bit x of row y is the cell (x, y). -/
abbrev Framebuffer := Vector (BitVec 64) 32

/-- RUN, the CPU's control state (R32). -/
inductive RunState where
  | running
  | waitingForKey
deriving DecidableEq, Repr

/-- The faults of spec/60_exceptions.md R123. A fault ends the command and changes nothing (R124), so the state after
it is the state the command started from. -/
inductive Fault where
  /-- Code 1. Raised by fetch, DXYN, FX33, FX55 and FX65 when an address of the run is above 0xFFF; the info is the
  lowest such address. Safe (log entry 14). -/
  | outOfRange (addr : Nat)
  /-- Code 2. Raised by a Running cycle whose word matches no row of the table. Safe (log entry 19). -/
  | unknownOpcode (w : Word)
  /-- Code 3. Raised by the host's KEY_DOWN and KEY_UP for an index outside 0..15. Safe: the spec states it. -/
  | invalidKey (k : Int)
  /-- Code 4. Raised by 2NNN when SP = 16; the info is the CALL's PC. Safe (log entry 13). -/
  | stackOverflow (pc : Word)
  /-- Code 5. Raised by 00EE when SP = 0; the info is the RET's PC. Safe (log entry 13). -/
  | stackUnderflow (pc : Word)
deriving DecidableEq, Repr

/-- Commands and instructions that have no meaning. -/
inductive Refusal where
  /-- `exec`, for an instruction that has no meaning in this model. Safe. No arm answers it. -/
  | notModelled (mnemonic : String)
  /-- The host's LOAD of more than 0xE00 bytes (R40, D20; log entry 21). Safe. -/
  | imageTooLong (length : Nat)
  /-- Any command but RESET and LOAD before the first of those (R144, D21; log entry 21). Safe. -/
  | beforeReset
deriving DecidableEq, Repr

/-- The block's state, field by field as R17 lists it, one field that holds a parameter of the block, and
one of the model's own. -/
structure State where
  /-- V0..VF (R19). -/
  v     : Vector Byte 16
  /-- I (R22). -/
  i     : Word
  /-- PC (R23). -/
  pc    : Word
  /-- STACK[0..15] (R24). -/
  stack : Vector Word 16
  /-- SP, 0..16 (R24). -/
  sp    : Fin 17
  /-- DT (R26). -/
  dt    : Byte
  /-- ST (R26). -/
  st    : Byte
  /-- MEM (R27). -/
  mem   : Memory
  /-- FB (R28). -/
  fb    : Framebuffer
  /-- KEY[0..15] (R29). -/
  key   : Vector Bool 16
  /-- DRAW (R31). -/
  draw  : Bool
  /-- RUN (R32). -/
  run   : RunState
  /-- WAITX (R30). -/
  waitx : RegIx
  /-- The FONT parameter the block is built with (R5, R38): any table; no instruction and no command writes it.
  DESIGN CHOICE (log entry 29), safe. -/
  font  : Config.Font
  /-- The model's own: how many random bytes CXKK has taken, the index of the next `Config.freeByte`.
  DESIGN CHOICE (log entry 1), safe. -/
  draws : Nat
deriving DecidableEq, Repr

/-- The machine right after reset (R17, R34, R141), built with the given FONT. `draws` is the model's own (log entry
1). -/
def State.resetWith (font : Config.Font) : State where
  v     := Vector.replicate 16 0
  i     := 0
  pc    := 0x200
  stack := Vector.replicate 16 0
  sp    := 0
  dt    := 0
  st    := 0
  mem   := []
  fb    := Vector.replicate 32 0
  key   := Vector.replicate 16 false
  draw  := false
  run   := .running
  waitx := 0
  font  := font
  draws := 0

/-- The machine right after reset, with the default FONT (R38, D24). -/
def State.reset : State := State.resetWith defaultFont

end Sys2Proof.Machine
end

