-- ==== Sys2Proof/Machine/Ops.lean ====
section
/-! DEFINITION. The named operations over memory, registers, PC, the call stack, the framebuffer and the keypad
(spec/20_memory.md R41 to R46, spec/42_control_flow.md R78 and R79, spec/44_graphics.md R99 to R102,
spec/45_input.md R109 and R110), and raising a fault (spec/60_exceptions.md R124). -/

namespace Sys2Proof.Machine

/-- What one instruction or cycle answers. -/
abbrev Result := Host.Outcome State Fault Refusal

/-! ### Raising a fault

The block has no exception entry and no return from one (R125, R127): a fault ends the command, nothing is saved, and
the state stays as it was. -/

/-- `raise E(info)` (R124). -/
def raise (f : Fault) : Result := .fault f

/-- Go on with the value of a checked operation, or raise its fault. -/
def orRaise {α : Type} (e : Except Fault α) (k : α → Result) : Result :=
  match e with
  | .ok a    => k a
  | .error f => raise f

/-! ### Memory as a list of cells

Each operation takes the FONT parameter, since an unlisted address reads as the reset contents under it. -/

/-- The byte at `a`: the listed one, or what the memory reset leaves there (R39). -/
def Memory.get (font : Config.Font) : Memory → Nat → Byte
  | [], a => resetByte font a
  | (a', b) :: m, a => if a = a' then b else Memory.get font m a

/-- Set the byte at `a`. On a canonical list the result is canonical: the entry stands in its place, or is left out
when the byte is the unlisted one. -/
def Memory.put (font : Config.Font) : Memory → Nat → Byte → Memory
  | [], a, b => if b = resetByte font a then [] else [(a, b)]
  | (a', b') :: m, a, b =>
    if a = a' then Memory.put font m a b
    else if a < a' ∧ b ≠ resetByte font a then (a, b) :: (a', b') :: m
    else (a', b') :: Memory.put font m a b

/-- Set the bytes from `base` on, in address order. -/
def Memory.putRun (font : Config.Font) : Memory → Nat → List Byte → Memory
  | m, _, [] => m
  | m, base, b :: bs => Memory.putRun font (Memory.put font m base b) (base + 1) bs

/-- The canonical form: addresses of MEM, strictly rising, no entry equal to what an unlisted address reads as. -/
def Memory.wf (font : Config.Font) : Memory → Bool
  | [] => true
  | (a, b) :: m =>
    decide (a < Config.memSize) && decide (b ≠ resetByte font a) && m.all (fun c => decide (a < c.1)) &&
      Memory.wf font m

/-- The byte of MEM at `a`. -/
def State.byte (s : State) (a : Nat) : Byte := Memory.get s.font s.mem a

/-- MEM with bytes set from `base` on. -/
def State.setBytes (s : State) (base : Nat) (bytes : List Byte) : State :=
  { s with mem := Memory.putRun s.font s.mem base bytes }

/-! ### Checked access (R41 to R44) -/

/-- The lowest address above 0xFFF among `base .. base+n-1`; the sums do not wrap (R41, R44). -/
def firstInvalid (base n : Nat) : Option Nat :=
  ((List.range n).map (base + ·)).find? (fun a => decide (Config.memSize ≤ a))

/-- `MemRead` of `n` consecutive bytes: every address is checked first (R42, R44). -/
def loadRun (s : State) (base n : Nat) : Except Fault (List Byte) :=
  match firstInvalid base n with
  | some a => .error (.outOfRange a)
  | none   => .ok ((List.range n).map (fun k => s.byte (base + k)))

/-- `MemWrite` of consecutive bytes: every address is checked before any byte is written (R43, R44). -/
def storeRun (s : State) (base : Nat) (bytes : List Byte) : Except Fault State :=
  match firstInvalid base bytes.length with
  | some a => .error (.outOfRange a)
  | none   => .ok (s.setBytes base bytes)

/-- The word at `a`, high byte first (R46). -/
def State.wordAt (s : State) (a : Nat) : Word := wordOfBytes (s.byte a) (s.byte (a + 1))

/-! ### General registers (R19) -/

/-- `V[x]`. -/
def State.reg (s : State) (x : RegIx) : Byte := s.v[x]

/-- `V[x] <- b`. -/
def State.setReg (s : State) (x : RegIx) (b : Byte) : State := { s with v := s.v.set x b }

/-- `V[0] .. V[x]`, in order: what FX55 stores (R121). -/
def State.regsTo (s : State) (x : RegIx) : List Byte := s.v.toList.take (x.val + 1)

/-- Load `V[0] .. V[x]` from a list of `x + 1` bytes: what FX65 does (R122). -/
def State.setRegsTo (s : State) (x : RegIx) (bytes : List Byte) : State :=
  { s with v := Vector.ofFn fun j : RegIx => if j ≤ x then bytes.getD j.val 0 else s.v[j] }

/-! ### Program counter (R71) -/

/-- `PC <- (PC + n) mod 65536`. -/
def State.addPc (s : State) (n : Word) : State := { s with pc := s.pc + n }

/-- `PC <- (PC + 2) mod 65536`. -/
def State.advance (s : State) : State := s.addPc 2

/-- A skip: 4 bytes when the condition holds, else 2 (R71). -/
def State.skipIf (s : State) (c : Bool) : State := if c then s.addPc 4 else s.addPc 2

/-- `PC <- target`. -/
def State.jump (s : State) (target : Word) : State := { s with pc := target }

/-! ### Call stack (R24, R78, R79) -/

/-- `Push(v)` after the caller's check SP < 16 (R78). -/
def State.push (s : State) (h : s.sp.val < 16) (a : Word) : State :=
  { s with stack := s.stack.set s.sp.val a, sp := ⟨s.sp.val + 1, by omega⟩ }

/-- The top of the stack, STACK[SP-1], after the caller's check SP > 0 (R79). -/
def State.top (s : State) (h : 0 < s.sp.val) : Word := s.stack[s.sp.val - 1]'(by omega)

/-- `Pop()`'s change of state; the slot is not cleared (R79, D28). -/
def State.dropTop (s : State) : State := { s with sp := ⟨s.sp.val - 1, by omega⟩ }

/-! ### Framebuffer (R99 to R102) -/

/-- FB[x][y]. -/
def pixel (fb : Framebuffer) (x y : Nat) : Bool :=
  if h : y < 32 then fb[y].getLsbD x else false

/-- `Clear()` (R100). -/
def clearedFb : Framebuffer := Vector.replicate 32 0

/-- FB[x][y] <- FB[x][y] XOR 1, for a column and a row of the grid. -/
def flipPixel (fb : Framebuffer) (x : Nat) (y : Fin 32) : Framebuffer :=
  fb.set y (fb[y] ^^^ BitVec.twoPow 64 x)

/-- `SetPixel(x, y)`: XOR-plot with true modulo wrap, and report whether the cell was 1 (R101). -/
def setPixel (fb : Framebuffer) (x y : Nat) : Framebuffer × Bool :=
  let xw := x % Config.fbWidth
  let yw : Fin 32 := ⟨y % Config.fbHeight, Nat.mod_lt _ (by decide)⟩
  (flipPixel fb xw yw, pixel fb xw yw.val)

/-- Plot a list of pixels in order; the flag is true iff some plotted pixel collided. -/
def plot (fb : Framebuffer) : List (Nat × Nat) → Framebuffer × Bool
  | [] => (fb, false)
  | (x, y) :: ps =>
    let (fb', hit) := setPixel fb x y
    let (fb'', hits) := plot fb' ps
    (fb'', hit || hits)

/-! ### Keypad (R109, R110) -/

/-- `IsDown(k)`: false, not a fault, for k above 15 (R109). -/
def State.isDown (s : State) (k : Nat) : Bool := if h : k < 16 then s.key[k] else false

/-- `AnyDown()`: the lowest pressed key (R110). -/
def State.anyDown (s : State) : Option RegIx := (List.finRange 16).find? (fun k => s.key[k])

end Sys2Proof.Machine
end

