-- ==== Sys2Proof/Machine/Flags.lean ====
section
/-! DEFINITION. The flag computations (spec/43_alu.md R93 to R97, spec/44_graphics.md R104) and the one way a flag is
written to VF (R21, R88). -/

namespace Sys2Proof.Machine

/-- A flag as a register value, exactly 0 or 1 (R21). -/
def flagByte (c : Bool) : Byte := if c then 1 else 0

/-- 8XY4: the sum exceeds 255 (R93). -/
def carryOut (a b : Byte) : Bool := decide (a.toNat + b.toNat > 255)

/-- 8XY5 and 8XY7: strictly greater (R94, R96). -/
def notBorrow (a b : Byte) : Bool := decide (a.toNat > b.toNat)

/-- 8XY6: bit 0 before the shift (R95). -/
def shiftedOutRight (b : Byte) : Bool := b.getLsbD 0

/-- 8XYE: bit 7 before the shift (R97). -/
def shiftedOutLeft (b : Byte) : Bool := b.getLsbD 7

/-- Write the result to V[x], then the flag to VF: with x = 0xF the flag is what remains (R88, D3; log entry 10). -/
def State.setWithFlag (s : State) (x : RegIx) (result : Byte) (flag : Bool) : State :=
  (s.setReg x result).setReg VF (flagByte flag)

end Sys2Proof.Machine
end

