-- ==== Sys2Proof/Machine/Alu.lean ====
section
/-! DEFINITION. The register-register ALU group 8XYn (spec/43_alu.md R88 to R97). Operands are read from the state the
instruction started in. -/

namespace Sys2Proof.Machine

/-- 8XY0 (R89). -/
def execLdReg (x y : RegIx) (s : State) : Result := .next (s.setReg x (s.reg y)).advance

/-- 8XY1 (R90). -/
def execOr (x y : RegIx) (s : State) : Result := .next (s.setReg x (s.reg x ||| s.reg y)).advance

/-- 8XY2 (R91). -/
def execAnd (x y : RegIx) (s : State) : Result := .next (s.setReg x (s.reg x &&& s.reg y)).advance

/-- 8XY3 (R92). -/
def execXor (x y : RegIx) (s : State) : Result := .next (s.setReg x (s.reg x ^^^ s.reg y)).advance

/-- 8XY4 (R93). -/
def execAddReg (x y : RegIx) (s : State) : Result :=
  .next (s.setWithFlag x (s.reg x + s.reg y) (carryOut (s.reg x) (s.reg y))).advance

/-- 8XY5 (R94). -/
def execSub (x y : RegIx) (s : State) : Result :=
  .next (s.setWithFlag x (s.reg x - s.reg y) (notBorrow (s.reg x) (s.reg y))).advance

/-- 8XY6: the source is Vy (R95). -/
def execShr (x y : RegIx) (s : State) : Result :=
  .next (s.setWithFlag x (s.reg y >>> 1) (shiftedOutRight (s.reg y))).advance

/-- 8XY7 (R96). -/
def execSubn (x y : RegIx) (s : State) : Result :=
  .next (s.setWithFlag x (s.reg y - s.reg x) (notBorrow (s.reg y) (s.reg x))).advance

/-- 8XYE: the source is Vy (R97). -/
def execShl (x y : RegIx) (s : State) : Result :=
  .next (s.setWithFlag x (s.reg y <<< 1) (shiftedOutLeft (s.reg y))).advance

end Sys2Proof.Machine
end

