-- ==== Sys2Proof/Machine/Operands.lean ====
section
/-! DEFINITION. The operand forms: what an instruction computes from its fields and registers before any write
(spec/00_scope.md R10, spec/30_encoding.md R58). -/

namespace Sys2Proof.Machine

/-- BNNN's target, `nnn + V[0]`, not masked to 12 bits (R87, D12). -/
def jumpOffset (s : State) (nnn : Addr12) : Word := zext16 nnn + zext16 (s.reg 0)

/-- FX1E's sum, `I + V[x]` mod 65536 (R118, D9). -/
def indexPlus (s : State) (x : RegIx) : Word := s.i + zext16 (s.reg x)

/-- FX29's glyph address, `V[x] * 5`, not masked to a digit (R119, D10). -/
def glyphAddr (s : State) (x : RegIx) : Word := zext16 (s.reg x) * 5

/-- FX33's digits: hundreds, tens, ones (R120). -/
def bcdDigits (b : Byte) : List Byte :=
  [BitVec.ofNat 8 (b.toNat / 100), BitVec.ofNat 8 (b.toNat / 10 % 10), BitVec.ofNat 8 (b.toNat % 10)]

/-- Memory operands start at I, as an unbounded number (R41). -/
def State.base (s : State) : Nat := s.i.toNat

/-- The set bits of one sprite row, as column offsets: bit 7 - c is at offset c (R102, D23; log entry 5). -/
def rowColumns (b : Byte) : List Nat := (List.range 8).filter (fun c => b.getLsbD (7 - c))

/-- The pixels a sprite plots at (px, py): each set bit of each row, row by row (R104). -/
def spritePixels (px py : Nat) : List Byte → List (Nat × Nat)
  | [] => []
  | b :: rows => (rowColumns b).map (fun c => (px + c, py)) ++ spritePixels px (py + 1) rows

end Sys2Proof.Machine
end

