-- ==== Sys2Proof/Machine/Control.lean ====
section
/-! DEFINITION. 00EE, 1NNN, 2NNN, the four register skips and BNNN (spec/42_control_flow.md R80 to R87). -/

namespace Sys2Proof.Machine

/-- 00EE: the popped value plus 2 (R80). -/
def execRet (s : State) : Result :=
  if h : 0 < s.sp.val then .next (s.dropTop.jump (s.top h + 2)) else raise (.stackUnderflow s.pc)

/-- 1NNN (R81). -/
def execJp (nnn : Addr12) (s : State) : Result := .next (s.jump (zext16 nnn))

/-- 2NNN: pushes the CALL's own address (R82). -/
def execCall (nnn : Addr12) (s : State) : Result :=
  if h : s.sp.val < 16 then .next ((s.push h s.pc).jump (zext16 nnn)) else raise (.stackOverflow s.pc)

/-- 3XKK (R83). -/
def execSeImm (x : RegIx) (kk : Byte) (s : State) : Result := .next (s.skipIf (s.reg x == kk))

/-- 4XKK (R84). -/
def execSneImm (x : RegIx) (kk : Byte) (s : State) : Result := .next (s.skipIf (s.reg x != kk))

/-- 5XY0 (R85). -/
def execSeReg (x y : RegIx) (s : State) : Result := .next (s.skipIf (s.reg x == s.reg y))

/-- 9XY0 (R86). -/
def execSneReg (x y : RegIx) (s : State) : Result := .next (s.skipIf (s.reg x != s.reg y))

/-- BNNN: always register V0 (R87). -/
def execJpV0 (nnn : Addr12) (s : State) : Result := .next (s.jump (jumpOffset s nnn))

end Sys2Proof.Machine
end

