-- ==== Sys2Proof/Machine/Graphics.lean ====
section
/-! DEFINITION. 00E0 and DXYN (spec/44_graphics.md R103, R104). Both set DRAW unconditionally (D6; log entry 12). -/

namespace Sys2Proof.Machine

/-- 00E0 (R103). -/
def execCls (s : State) : Result := .next { s with fb := clearedFb, draw := true }.advance

/-- Plot the rows at the coordinates `px`, `py`, set VF and DRAW (R104). -/
def State.drawSprite (s : State) (px py : Nat) (rows : List Byte) : State :=
  let (fb, hit) := plot s.fb (spritePixels px py rows)
  { s.setReg VF (flagByte hit) with fb := fb, draw := true }

/-- DXYN: the coordinates and I are read before VF is written; every row's address is checked first (R104, R44). -/
def execDrw (x y : RegIx) (n : RowCount) (s : State) : Result :=
  orRaise (loadRun s s.base n.val) fun rows =>
    .next (s.drawSprite (s.reg x).toNat (s.reg y).toNat rows).advance

end Sys2Proof.Machine
end

