-- ==== Sys2Proof/Machine/Immediate.lean ====
section
/-! DEFINITION. ANNN, 6XKK, 7XKK and CXKK (spec/41_immediate.md R74 to R77). -/

namespace Sys2Proof.Machine

/-- ANNN (R74). -/
def execLdI (nnn : Addr12) (s : State) : Result := .next { s with i := zext16 nnn }.advance

/-- 6XKK (R75). -/
def execLdImm (x : RegIx) (kk : Byte) (s : State) : Result := .next (s.setReg x kk).advance

/-- 7XKK: no carry recorded (R76). -/
def execAddImm (x : RegIx) (kk : Byte) (s : State) : Result := .next (s.setReg x (s.reg x + kk)).advance

/-- CXKK with the cycle's random byte `r` (R77). `draws` counts the byte as taken (log entry 1). -/
def rndWith (r : Byte) (x : RegIx) (kk : Byte) (s : State) : Result :=
  .next { (s.setReg x (r &&& kk)).advance with draws := s.draws + 1 }

/-- CXKK: the random byte is the free value at `draws` (R77, R65; log entry 1). -/
def execRnd (x : RegIx) (kk : Byte) (s : State) : Result := rndWith (Config.freeByte s.draws) x kk s

end Sys2Proof.Machine
end

