-- ==== Sys2Proof/Machine/Input.lean ====
section
/-! DEFINITION. EX9E, EXA1 and FX0A, and the cycle of a waiting CPU (spec/45_input.md R112 to R114,
spec/40_cycle.md R68). -/

namespace Sys2Proof.Machine

/-- EX9E: Vx above 15 reads as not pressed (R112). -/
def execSkp (x : RegIx) (s : State) : Result := .next (s.skipIf (s.isDown (s.reg x).toNat))

/-- EXA1 (R113). -/
def execSknp (x : RegIx) (s : State) : Result := .next (s.skipIf (!s.isDown (s.reg x).toNat))

/-- A key's number as a register value. -/
def keyByte (k : RegIx) : Byte := BitVec.ofNat 8 k.val

/-- FX0A: a key that is already down completes it at once; else it enters the wait, PC unchanged (R114). -/
def execLdVxK (x : RegIx) (s : State) : Result :=
  match s.anyDown with
  | some k => .next (s.setReg x (keyByte k)).advance
  | none   => .next { s with waitx := x, run := .waitingForKey }

/-- A WaitingForKey cycle: one poll, no fetch, no fault (R68). -/
def waitingCycle (s : State) : Result :=
  match s.anyDown with
  | some k => .next { (s.setReg s.waitx (keyByte k)).advance with run := .running }
  | none   => .next s

end Sys2Proof.Machine
end

