-- ==== Sys2Proof/Machine/Transfer.lean ====
section
/-! DEFINITION. The F group: timers, index arithmetic and block memory transfer (spec/46_timers_memory.md R115 to
R122). FX33, FX55 and FX65 leave I alone (D11; log entry 15). -/

namespace Sys2Proof.Machine

/-- FX07 (R115). -/
def execLdVxDt (x : RegIx) (s : State) : Result := .next (s.setReg x s.dt).advance

/-- FX15 (R116). -/
def execLdDtVx (x : RegIx) (s : State) : Result := .next { s with dt := s.reg x }.advance

/-- FX18: never emits the tone (R117). -/
def execLdStVx (x : RegIx) (s : State) : Result := .next { s with st := s.reg x }.advance

/-- FX1E: VF unchanged (R118). -/
def execAddIVx (x : RegIx) (s : State) : Result := .next { s with i := indexPlus s x }.advance

/-- FX29 (R119). -/
def execLdFVx (x : RegIx) (s : State) : Result := .next { s with i := glyphAddr s x }.advance

/-- FX33 (R120). -/
def execLdBVx (x : RegIx) (s : State) : Result :=
  orRaise (storeRun s s.base (bcdDigits (s.reg x))) fun t => .next t.advance

/-- FX55 (R121). -/
def execLdMemVx (x : RegIx) (s : State) : Result :=
  orRaise (storeRun s s.base (s.regsTo x)) fun t => .next t.advance

/-- FX65 (R122). -/
def execLdVxMem (x : RegIx) (s : State) : Result :=
  orRaise (loadRun s s.base (x.val + 1)) fun bytes => .next (s.setRegsTo x bytes).advance

end Sys2Proof.Machine
end

