-- ==== Sys2Proof/Machine/Fetch.lean ====
section
/-! DEFINITION. Fetching and decoding the instruction at PC (spec/40_cycle.md R66, R67, R72). -/

namespace Sys2Proof.Machine

/-- `Fetch()`: the check of PC, then of PC + 1, then the word, high byte first; no state is written (R66). -/
def fetchWord (s : State) : Except Fault Word :=
  match firstInvalid s.pc.toNat 2 with
  | some a => .error (.outOfRange a)
  | none   => .ok (s.wordAt s.pc.toNat)

/-- Fetch, then decode: the fetch check comes first, then UnknownOpcode (R67, R72). -/
def fetchInstr (s : State) : Except Fault Instr :=
  match fetchWord s with
  | .error f => .error f
  | .ok w =>
    match decode w with
    | .ok i    => .ok i
    | .error _ => .error (.unknownOpcode w)

/-- Place a word's bytes at `a`, high byte first (R46). -/
def State.placeWord (s : State) (a : Nat) (w : Word) : State :=
  s.setBytes a [highByte w, lowByte w]

end Sys2Proof.Machine
end

