-- ==== Sys2Proof/Machine/Step.lean ====
section
/-! DEFINITION. One step is one CYCLE (spec/40_cycle.md R65, R67, R68), its random byte the free value at `draws`. -/

namespace Sys2Proof.Machine

/-- A Running cycle runs the one instruction at PC; a WaitingForKey cycle polls the keys and fetches nothing. -/
def step (s : State) : Host.Outcome State Fault Refusal :=
  match s.run with
  | .running       => orRaise (fetchInstr s) fun i => exec i s
  | .waitingForKey => waitingCycle s

/-- `s` with a word where `step` fetches next: its bytes at PC, and RUN = Running, since a waiting CPU fetches nothing.
It stands for the host's LOAD (log entry 9). -/
def State.withFetchWord (s : State) (nbits w : Nat) : State :=
  { s.placeWord s.pc.toNat (tableWord nbits w) with run := .running }

end Sys2Proof.Machine
end

