-- ==== Sys2Proof/Machine/HostPort.lean ====
section
/-! DEFINITION. The host interface (spec/60_exceptions.md R138 to R140): every command, each one atomic transaction on
the state, and the run of any list of them, that is, of any interleaving (R139). -/

namespace Sys2Proof.Machine

/-- The commands of R138. A key index is any integer, so that one outside 0..15 can be given (R107). -/
inductive Command where
  | reset
  | load (bytes : List Byte)
  | cycle (r : Byte)
  | tick
  | keyDown (k : Int)
  | keyUp (k : Int)
  | readDraw
  | clearDraw
  | snapshot
deriving DecidableEq, Repr

/-- What a command returns to the host. -/
inductive Reply where
  | ok
  /-- TICK's output event: whether the tone was emitted (R131). -/
  | tone (fired : Bool)
  /-- READ_DRAW's answer (R31). -/
  | drawFlag (d : Bool)
  /-- SNAPSHOT's 2048 cells (R105). -/
  | cells (bits : List Bool)
  /-- `Fault(kind, info)`; the state is unchanged (R124). -/
  | fault (f : Fault)
deriving DecidableEq, Repr

/-- What one command answers: the state after it with its reply, a fault, or a refusal. -/
abbrev Answer := Host.Outcome (State × Reply) Fault Refusal

/-! ### The fault port (R123; codes are D18's, log entry 22) -/

/-- The numeric code of a fault's kind. -/
def Fault.code : Fault → Nat
  | .outOfRange _     => 1
  | .unknownOpcode _  => 2
  | .invalidKey _     => 3
  | .stackOverflow _  => 4
  | .stackUnderflow _ => 5

/-- The info recorded, an unbounded number. -/
def Fault.info : Fault → Int
  | .outOfRange a      => a
  | .unknownOpcode w   => w.toNat
  | .invalidKey k      => k
  | .stackOverflow pc  => pc.toNat
  | .stackUnderflow pc => pc.toNat

/-! ### The commands -/

/-- RESET (R141): every field of R17 at its reset value; the FONT parameter stays what it is. The model's `draws` goes on, so that the free bytes after a
RESET are not the ones before it (log entry 2). -/
def State.resetFrom (s : State) : State := { State.resetWith s.font with draws := s.draws }

/-- LOAD(bytes): reset, then the copy to 0x200, or a refusal of an image that is too long (R40, D20). -/
def load (bytes : List Byte) (s : State) : Answer :=
  if wellFormedImage bytes then
    .next (s.resetFrom.setBytes Config.loadAddr bytes, .ok)
  else .refused (.imageTooLong bytes.length)

/-- `Execute(inst, w, r)`: only CXKK reads the random byte (R65, R67). -/
def executeWith (r : Byte) (i : Instr) (s : State) : Result :=
  match i with
  | .rnd x kk => rndWith r x kk s
  | i => exec i s

/-- `CYCLE(r)` (R65, R67, R68). -/
def cycle (r : Byte) (s : State) : Result :=
  match s.run with
  | .running       => orRaise (fetchInstr s) fun i => executeWith r i s
  | .waitingForKey => waitingCycle s

/-- A counter's decrement, floored at 0 (R26, R131). -/
def countDown (b : Byte) : Byte := if b = 0 then 0 else b - 1

/-- The tone fires on the tick that finds ST at 1 (R131). -/
def toneFires (s : State) : Bool := s.st == 1

/-- TICK's change of state: both timers, nothing else (R131). -/
def State.ticked (s : State) : State := { s with dt := countDown s.dt, st := countDown s.st }

/-- KEY[k] <- b for a key the keypad has, else InvalidKey (R107, R108). -/
def setKey (k : Int) (b : Bool) (s : State) : Answer :=
  if h : wellFormedKey k = true then
    .next ({ s with key := s.key.set k.toNat b (by simp only [wellFormedKey, decide_eq_true_eq] at h; omega) }, .ok)
  else .fault (.invalidKey k)

/-- SNAPSHOT's cells, row-major: cell (x, y) at index y * 64 + x (R105). -/
def snapshotCells (s : State) : List Bool :=
  (List.range 2048).map (fun j => pixel s.fb (j % Config.fbWidth) (j / Config.fbWidth))

/-- A cycle's result as a command's answer. -/
def withOk (r : Result) : Answer :=
  match r with
  | .next t    => .next (t, .ok)
  | .fault f   => .fault f
  | .refused r => .refused r

/-- One command on a block that has been reset (R138). -/
def command (c : Command) (s : State) : Answer :=
  match c with
  | .reset      => .next (s.resetFrom, .ok)
  | .load bytes => load bytes s
  | .cycle r    => withOk (cycle r s)
  | .tick       => .next (s.ticked, .tone (toneFires s))
  | .keyDown k  => setKey k true s
  | .keyUp k    => setKey k false s
  | .readDraw   => .next (s, .drawFlag s.draw)
  | .clearDraw  => .next ({ s with draw := false }, .ok)
  | .snapshot   => .next (s, .cells (snapshotCells s))

/-- One command on the block built with the given FONT, from power-on: before the first RESET or LOAD (`none`) every other command is refused
(R140, R144, D21). -/
def blockCommand (font : Config.Font) (c : Command) (b : Option State) : Answer :=
  match b with
  | some s => command c s
  | none =>
    match c with
    | .reset      => .next (State.resetWith font, .ok)
    | .load bytes => load bytes (State.resetWith font)
    | .cycle _    => .refused .beforeReset
    | .tick       => .refused .beforeReset
    | .keyDown _  => .refused .beforeReset
    | .keyUp _    => .refused .beforeReset
    | .readDraw   => .refused .beforeReset
    | .clearDraw  => .refused .beforeReset
    | .snapshot   => .refused .beforeReset

/-- The host's run: commands one at a time, in order (R139). A fault is reported and the state stays (R124); a command
the model refuses ends the run (R140). -/
def hostRun (s : State) : List Command → Except Refusal (State × List Reply)
  | [] => .ok (s, [])
  | c :: cs =>
    match command c s with
    | .next (t, r) =>
      match hostRun t cs with
      | .ok (u, rs) => .ok (u, r :: rs)
      | .error e    => .error e
    | .fault f =>
      match hostRun s cs with
      | .ok (u, rs) => .ok (u, .fault f :: rs)
      | .error e    => .error e
    | .refused e => .error e

end Sys2Proof.Machine
end

