-- ==== Sys2Proof/Safety.lean ====
section
/-! DEFINITION. The terms claims are stated in: what an instruction leaves unchanged, the invariant of the machine, safe
runs and the end of a run. -/

namespace Sys2Proof.Machine

/-! ### Frames -/

/-- The parts of the state (spec/10_state.md R17, the FONT parameter, and the model's `draws`). -/
inductive Piece where
  | v | i | pc | stack | sp | dt | st | mem | fb | key | draw | run | waitx | font | draws
deriving DecidableEq, Repr

/-- A part reads in `t` as it read in `s`: registers, slots, keys and memory bytes one by one, FB cell by cell. -/
def Piece.same (p : Piece) (s t : State) : Prop :=
  match p with
  | .v     => ∀ j : RegIx, t.reg j = s.reg j
  | .i     => t.i = s.i
  | .pc    => t.pc = s.pc
  | .stack => ∀ j : Fin 16, t.stack[j] = s.stack[j]
  | .sp    => t.sp = s.sp
  | .dt    => t.dt = s.dt
  | .st    => t.st = s.st
  | .mem   => ∀ a : Nat, t.byte a = s.byte a
  | .fb    => ∀ x < 64, ∀ y < 32, pixel t.fb x y = pixel s.fb x y
  | .key   => ∀ k : Fin 16, t.key[k] = s.key[k]
  | .draw  => t.draw = s.draw
  | .run   => t.run = s.run
  | .waitx => t.waitx = s.waitx
  | .font  => t.font = s.font
  | .draws => t.draws = s.draws

/-- Every part that is not listed is unchanged. -/
def OnlyChanges (ps : List Piece) (s t : State) : Prop := ∀ p : Piece, p ∉ ps → p.same s t

/-- Every register but the listed ones is unchanged. -/
def KeepsRegsBut (xs : List RegIx) (s t : State) : Prop := ∀ j : RegIx, j ∉ xs → t.reg j = s.reg j

/-- PC moved on by `n` bytes, modulo 65536 (spec/40_cycle.md R71). -/
def PcMoved (n : Nat) (s t : State) : Prop := t.pc.toNat = (s.pc.toNat + n) % 65536

/-- A skip's PC: 4 bytes on when the condition holds, else 2 (R71). -/
def PcSkipped (c : Prop) (s t : State) : Prop := (c → PcMoved 4 s t) ∧ (¬c → PcMoved 2 s t)

/-- The key k is down: a key of the keypad that is pressed (spec/45_input.md R109). -/
def KeyDown (s : State) (k : Nat) : Prop := ∃ h : k < 16, s.key[k] = true

end Sys2Proof.Machine

namespace Sys2Proof

/-! ### What each instruction may write -/

/-- Which registers an instruction may write (spec/10_state.md R20). -/
def Instr.writesReg : Instr → RegIx → Bool
  | .ldI _,      _ => false
  | .cls,        _ => false
  | .ret,        _ => false
  | .jp _,       _ => false
  | .call _,     _ => false
  | .seImm _ _,  _ => false
  | .sneImm _ _, _ => false
  | .seReg _ _,  _ => false
  | .sneReg _ _, _ => false
  | .ldImm x _,  j => j == x
  | .addImm x _, j => j == x
  | .ldReg x _,  j => j == x
  | .orReg x _,  j => j == x
  | .andReg x _, j => j == x
  | .xorReg x _, j => j == x
  | .addReg x _, j => j == x || j == VF
  | .sub x _,    j => j == x || j == VF
  | .shr x _,    j => j == x || j == VF
  | .subn x _,   j => j == x || j == VF
  | .shl x _,    j => j == x || j == VF
  | .jpV0 _,     _ => false
  | .rnd x _,    j => j == x
  | .drw _ _ _,  j => j == VF
  | .skp _,      _ => false
  | .sknp _,     _ => false
  | .ldVxDt x,   j => j == x
  | .ldVxK x,    j => j == x
  | .ldDtVx _,   _ => false
  | .ldStVx _,   _ => false
  | .addIVx _,   _ => false
  | .ldFVx _,    _ => false
  | .ldBVx _,    _ => false
  | .ldMemVx _,  _ => false
  | .ldVxMem x,  j => decide (j ≤ x)

/-- Which parts an instruction may change (spec/10_state.md R20, R22, R24, R26, R28 to R31; spec/20_memory.md R36). -/
def Instr.changes : Instr → List Machine.Piece
  | .ldI _      => [.pc, .i]
  | .cls        => [.pc, .fb, .draw]
  | .ret        => [.pc, .sp]
  | .jp _       => [.pc]
  | .call _     => [.pc, .stack, .sp]
  | .seImm _ _  => [.pc]
  | .sneImm _ _ => [.pc]
  | .seReg _ _  => [.pc]
  | .sneReg _ _ => [.pc]
  | .ldImm _ _  => [.pc, .v]
  | .addImm _ _ => [.pc, .v]
  | .ldReg _ _  => [.pc, .v]
  | .orReg _ _  => [.pc, .v]
  | .andReg _ _ => [.pc, .v]
  | .xorReg _ _ => [.pc, .v]
  | .addReg _ _ => [.pc, .v]
  | .sub _ _    => [.pc, .v]
  | .shr _ _    => [.pc, .v]
  | .subn _ _   => [.pc, .v]
  | .shl _ _    => [.pc, .v]
  | .jpV0 _     => [.pc]
  | .rnd _ _    => [.pc, .v, .draws]
  | .drw _ _ _  => [.pc, .v, .fb, .draw]
  | .skp _      => [.pc]
  | .sknp _     => [.pc]
  | .ldVxDt _   => [.pc, .v]
  | .ldVxK _    => [.pc, .v, .run, .waitx]
  | .ldDtVx _   => [.pc, .dt]
  | .ldStVx _   => [.pc, .st]
  | .addIVx _   => [.pc, .i]
  | .ldFVx _    => [.pc, .i]
  | .ldBVx _    => [.pc, .mem]
  | .ldMemVx _  => [.pc, .mem]
  | .ldVxMem _  => [.pc, .v]

/-- The instructions that write VF as a flag (spec/10_state.md R21). -/
def Instr.writesFlag : Instr → Bool
  | .addReg _ _ => true
  | .sub _ _    => true
  | .shr _ _    => true
  | .subn _ _   => true
  | .shl _ _    => true
  | .drw _ _ _  => true
  | .ldI _ | .cls | .ret | .jp _ | .call _ | .seImm _ _ | .sneImm _ _ | .seReg _ _ | .sneReg _ _ | .ldImm _ _
  | .addImm _ _ | .ldReg _ _ | .orReg _ _ | .andReg _ _ | .xorReg _ _ | .jpV0 _ | .rnd _ _ | .skp _ | .sknp _
  | .ldVxDt _ | .ldVxK _ | .ldDtVx _ | .ldStVx _ | .addIVx _ | .ldFVx _ | .ldBVx _ | .ldMemVx _ | .ldVxMem _ => false

/-- How many bytes from I on an instruction reads or writes (spec/20_memory.md R36). -/
def Instr.bytesAtI : Instr → Nat
  | .drw _ _ n => n.val
  | .ldBVx _   => 3
  | .ldMemVx x => x.val + 1
  | .ldVxMem x => x.val + 1
  | .ldI _ | .cls | .ret | .jp _ | .call _ | .seImm _ _ | .sneImm _ _ | .seReg _ _ | .sneReg _ _ | .ldImm _ _
  | .addImm _ _ | .ldReg _ _ | .orReg _ _ | .andReg _ _ | .xorReg _ _ | .addReg _ _ | .sub _ _ | .shr _ _
  | .subn _ _ | .shl _ _ | .jpV0 _ | .rnd _ _ | .skp _ | .sknp _ | .ldVxDt _ | .ldVxK _ | .ldDtVx _ | .ldStVx _
  | .addIVx _ | .ldFVx _ => 0

end Sys2Proof

namespace Sys2Proof.Machine

/-! ### Memory -/

/-- `a` is the lowest invalid address of the run `base .. base+n-1` (spec/20_memory.md R41, R44). -/
def LowestInvalid (base n a : Nat) : Prop :=
  base ≤ a ∧ a < base + n ∧ 0xFFF < a ∧ ∀ b : Nat, base ≤ b → b < a → b ≤ 0xFFF

/-- Memory holds what a memory reset leaves: FONT at 0x000..0x04F, zero elsewhere (spec/20_memory.md R39). -/
def FontThenZero (s : State) : Prop :=
  (∀ (a : Nat) (h : a < 80), s.byte a = s.font[a]) ∧ ∀ a : Nat, 0x50 ≤ a → a ≤ 0xFFF → s.byte a = 0

/-! ### Sprites -/

/-- The sprite of `n` rows at address `base`, drawn at (px, py), plots the cell (cx, cy): some set bit of some row
lands there, with wrap on both axes (spec/44_graphics.md R101, R102, R104). -/
def SpritePlots (s : State) (base n px py cx cy : Nat) : Prop :=
  ∃ r < n, ∃ c < 8, (s.byte (base + r)).getLsbD (7 - c) = true ∧ cx = (px + c) % 64 ∧ cy = (py + r) % 32

/-! ### The invariant -/

/-- What holds of every state a host can drive the block into: the bound on PC (spec/70_reset_and_hazards.md R151), the
bound on a pushed return address (spec/42_control_flow.md R80), memory in its canonical form, and a waiting CPU's PC and
WAITX naming the FX0A that waits (spec/40_cycle.md R69). -/
structure State.Inv (s : State) : Prop where
  pcBound   : s.pc.toNat ≤ 0x10FE
  liveSlots : ∀ j : Fin 16, j.val < s.sp.val → s.stack[j].toNat ≤ 0x0FFE
  memory    : Memory.wf s.font s.mem = true
  waiting   : s.run = .waitingForKey → fetchInstr s = .ok (.ldVxK s.waitx)

/-- Two states that differ at most in dead stack slots, those at SP or above (spec/10_state.md R25). -/
def SameButDeadSlots (s t : State) : Prop :=
  t = { s with stack := t.stack } ∧ ∀ j : Fin 16, j.val < s.sp.val → t.stack[j] = s.stack[j]

/-- Two results that agree but for dead stack slots. -/
def ResultsAgree (a b : Result) : Prop :=
  match a, b with
  | .next s,    .next t    => SameButDeadSlots s t
  | .fault f,   .fault g   => f = g
  | .refused f, .refused g => f = g
  | .next _,    .fault _   => False
  | .next _,    .refused _ => False
  | .fault _,   .next _    => False
  | .fault _,   .refused _ => False
  | .refused _, .next _    => False
  | .refused _, .fault _   => False

/-! ### Runs -/

/-- A run is safe if no command of it reported a fault (spec/70_reset_and_hazards.md R152: a claim about a program's end
takes "no fault reported" as a premise). -/
def SafeReplies (rs : List Reply) : Prop := ∀ f : Fault, Reply.fault f ∉ rs

/-- A program has reached its end: the word at PC is `1NNN` with nnn = PC (R152). -/
def ReachedEnd (s : State) : Prop := ∃ nnn : Addr12, fetchInstr s = .ok (.jp nnn) ∧ nnn.toNat = s.pc.toNat

/-- The commands that neither reset the block nor load a program. -/
def Command.keepsProgram : Command → Bool
  | .reset     => false
  | .load _    => false
  | .cycle _   => true
  | .tick      => true
  | .keyDown _ => true
  | .keyUp _   => true
  | .readDraw  => true
  | .clearDraw => true
  | .snapshot  => true

end Sys2Proof.Machine
end

