-- ==== Sys2Proof/Certificates/Slice0/Obligations.lean ====
section
/-! DEFINITION. The statements for the provers, one `Obligations.<Name>` each. A docstring that names a decision D<n>
of spec/92_eei_decisions.md or a log entry says which clause is not D00's: those statements are 'derived'. -/

open Sys2Proof Sys2Proof.Machine

/-! ## Encoding -/

/-- Decoding an encoded instruction gives it back, every operand at every value (30_encoding.md, formats and map). -/
def Obligations.DecodeUndoesEncode : Prop := ∀ i : Instr, decode (encode i) = .ok i

/-- Encoding what a word decodes to gives the word back: each legal word has one meaning, and no bit is ignored. -/
def Obligations.EncodeUndoesDecode : Prop := ∀ (w : Word) (i : Instr), decode w = .ok i → encode i = w

/-- A word that decodes lies in exactly one row of the opcode table, the row of the instruction it decodes to; a word
that does not decode lies in none, and is rejected by name. -/
def Obligations.DecodedWordLiesInItsOwnRowOnly : Prop :=
  ∀ w : Word,
    match decode w with
    | .ok i    => ∃ r : OpcodeRow, opcodeTable.filter (·.matchesWord w) = [r] ∧ r.mnemonic = i.mnemonic
    | .error e => e = .unknown w ∧ opcodeTable.filter (·.matchesWord w) = []

/-- The illegal words are the six ranges of 30_encoding.md section 4. -/
def Obligations.IllegalWordsAreTheListedRanges : Prop :=
  ∀ w : Word, decode w = .error (.unknown w) ↔
    (w.toNat ≤ 0x0FFF ∧ w.toNat ≠ 0x00E0 ∧ w.toNat ≠ 0x00EE) ∨
    (w.toNat / 0x1000 = 0x5 ∧ w.toNat % 0x10 ≠ 0) ∨
    (w.toNat / 0x1000 = 0x8 ∧ (8 ≤ w.toNat % 0x10 ∧ w.toNat % 0x10 ≤ 0xD ∨ w.toNat % 0x10 = 0xF)) ∨
    (w.toNat / 0x1000 = 0x9 ∧ w.toNat % 0x10 ≠ 0) ∨
    (w.toNat / 0x1000 = 0xE ∧ w.toNat % 0x100 ≠ 0x9E ∧ w.toNat % 0x100 ≠ 0xA1) ∨
    (w.toNat / 0x1000 = 0xF ∧ w.toNat % 0x100 ∉ [0x07, 0x0A, 0x15, 0x18, 0x1E, 0x29, 0x33, 0x55, 0x65])

/-- Words of 95_test_vectors.md section 2.1, one of each family, decode to what the vectors say. -/
def Obligations.VectorWordsDecode : Prop :=
  decode 0xAABC = .ok (.ldI 0xABC) ∧ decode 0x00E0 = .ok .cls ∧ decode 0x00EE = .ok .ret ∧
  decode 0x2ABC = .ok (.call 0xABC) ∧ decode 0x3A42 = .ok (.seImm 0xA 0x42) ∧
  decode 0x8AB5 = .ok (.sub 0xA 0xB) ∧ decode 0xDAB5 = .ok (.drw 0xA 0xB 5) ∧
  decode 0xEAA1 = .ok (.sknp 0xA) ∧ decode 0xFA55 = .ok (.ldMemVx 0xA) ∧
  decode 0x5AB1 = .error (.unknown 0x5AB1) ∧ decode 0xFFFF = .error (.unknown 0xFFFF)

/-! ## The cycle -/

/-- A running CPU whose two bytes at PC, high byte first, decode to `i` runs exactly `i` (R67, R46). -/
def Obligations.StepRunsDecodedInstruction : Prop :=
  ∀ (s : State) (w : Word) (i : Instr), s.run = .running → s.pc.toNat + 1 ≤ 0xFFF →
    w.toNat = (s.byte s.pc.toNat).toNat * 256 + (s.byte (s.pc.toNat + 1)).toNat →
    decode w = .ok i → step s = exec i s

/-- Fetch faults iff PC is 0x0FFF or above, and names PC, or PC + 1 when PC itself is valid; else it reads the word at
PC, high byte first (R66). -/
def Obligations.FetchFaultsExactlyAtTheEnd : Prop :=
  ∀ s : State,
    (0xFFF < s.pc.toNat → fetchWord s = .error (.outOfRange s.pc.toNat)) ∧
    (s.pc.toNat = 0xFFF → fetchWord s = .error (.outOfRange (s.pc.toNat + 1))) ∧
    (s.pc.toNat < 0xFFF → ∃ w : Word, fetchWord s = .ok w ∧
      w.toNat = (s.byte s.pc.toNat).toNat * 256 + (s.byte (s.pc.toNat + 1)).toNat)

/-- A Running cycle's order: the fetch check, then the decode check, then the instruction; with every random byte
(R67). A fault answers no state. -/
def Obligations.RunningCycleChecksInOrder : Prop :=
  ∀ (r : Byte) (s : State), s.run = .running →
    (∀ f : Fault, fetchWord s = .error f → cycle r s = .fault f) ∧
    (∀ w : Word, fetchWord s = .ok w →
      (∀ e : DecodeError, decode w = .error e → cycle r s = .fault (.unknownOpcode w)) ∧
      (∀ i : Instr, decode w = .ok i → cycle r s = executeWith r i s))

/-- A waiting CPU polls once, writes the lowest pressed key to V[WAITX] and goes on, or changes nothing; it never
faults. That it fetches nothing is D15's. -/
def Obligations.WaitingCyclePollsKeys : Prop :=
  ∀ s : State, s.run = .waitingForKey →
    ((∀ k : RegIx, s.key[k] = false) → step s = .next s) ∧
    (∀ k : RegIx, s.key[k] = true → (∀ j : RegIx, j < k → s.key[j] = false) →
      ∃ t : State, step s = .next t ∧ (t.reg s.waitx).toNat = k.val ∧ PcMoved 2 s t ∧ t.run = .running ∧
        KeepsRegsBut [s.waitx] s t ∧ OnlyChanges [.v, .pc, .run] s t)

/-- While PC and WAITX name the waiting FX0A, polling without a fetch is the same as fetching and executing it again. -/
def Obligations.WaitingEqualsRefetching : Prop :=
  ∀ s : State, s.run = .waitingForKey → fetchInstr s = .ok (.ldVxK s.waitx) →
    step s = step { s with run := .running }

/-- The step is a CYCLE whose random byte is the free value at `draws` (log entry 1). -/
def Obligations.StepIsCycleWithTheFreeByte : Prop := ∀ s : State, step s = cycle (Config.freeByte s.draws) s

/-- Only CXKK reads the cycle's random byte. -/
def Obligations.OnlyRndReadsTheRandomByte : Prop :=
  ∀ (s : State) (r r' : Byte), (∀ (x : RegIx) (kk : Byte), fetchInstr s ≠ .ok (.rnd x kk)) → cycle r s = cycle r' s

/-- No step refuses, since every instruction has its meaning; and a step's fault comes from a running CPU and has its
listed cause and info: the fetch check, or the lowest invalid address of the run at I of DXYN, FX33, FX55 or FX65; an
unknown word; a CALL on a full stack or a RET on an empty one. The two stack faults are D7's, the lowest address D29's
(log entries 13, 14). -/
def Obligations.StepNeverRefusesAndFaultsForListedCauses : Prop :=
  (∀ (s : State) (e : Refusal), step s ≠ .refused e) ∧
  ∀ (s : State) (f : Fault), step s = .fault f → s.run = .running ∧
    ((∃ a : Nat, f = .outOfRange a ∧ 0xFFF < a ∧ fetchWord s = .error (.outOfRange a)) ∨
     (∃ (a : Nat) (i : Instr), f = .outOfRange a ∧ fetchInstr s = .ok i ∧ LowestInvalid s.base i.bytesAtI a) ∨
     (∃ w : Word, f = .unknownOpcode w ∧ fetchWord s = .ok w ∧ wellFormedWord w = false) ∨
     (f = .stackOverflow s.pc ∧ s.sp.val = 16 ∧ ∃ nnn : Addr12, fetchInstr s = .ok (.call nnn)) ∨
     (f = .stackUnderflow s.pc ∧ s.sp.val = 0 ∧ fetchInstr s = .ok .ret))

/-! ## Immediate loads and random -/

/-- ANNN, 6XKK and 7XKK, x = 0xF included: the sum is modulo 256 and no carry is recorded (R74, R75, R76). -/
def Obligations.ImmediateLoadsAndAdd : Prop :=
  ∀ (x : RegIx) (kk : Byte) (nnn : Addr12) (s : State),
    (∃ t : State, exec (.ldI nnn) s = .next t ∧ t.i.toNat = nnn.toNat ∧
      PcMoved 2 s t ∧ OnlyChanges [.i, .pc] s t) ∧
    (∃ t : State, exec (.ldImm x kk) s = .next t ∧ t.reg x = kk ∧
      PcMoved 2 s t ∧ KeepsRegsBut [x] s t ∧ OnlyChanges [.v, .pc] s t) ∧
    (∃ t : State, exec (.addImm x kk) s = .next t ∧ (t.reg x).toNat = ((s.reg x).toNat + kk.toNat) % 256 ∧
      PcMoved 2 s t ∧ KeepsRegsBut [x] s t ∧ OnlyChanges [.v, .pc] s t)

/-- CXKK takes the free byte at `draws`, masks it with kk, and counts it as taken (D17; log entry 1). -/
def Obligations.RandomByteIsMasked : Prop :=
  ∀ (x : RegIx) (kk : Byte) (s : State), ∃ t : State, exec (.rnd x kk) s = .next t ∧
    (∀ b < 8, (t.reg x).getLsbD b = ((Config.freeByte s.draws).getLsbD b && kk.getLsbD b)) ∧
    t.draws = s.draws + 1 ∧ PcMoved 2 s t ∧ KeepsRegsBut [x] s t ∧ OnlyChanges [.v, .pc, .draws] s t

/-- CXKK admits every value with no bit outside kk: the host's random byte can produce each, and only those. -/
def Obligations.RandomAdmitsEveryMaskedValue : Prop :=
  ∀ (x : RegIx) (kk : Byte) (s : State), s.run = .running → fetchInstr s = .ok (.rnd x kk) →
    (∀ v : Byte, v &&& ~~~kk = 0 → ∃ (r : Byte) (t : State), cycle r s = .next t ∧ t.reg x = v) ∧
    (∀ r : Byte, ∃ t : State, cycle r s = .next t ∧ t.reg x &&& ~~~kk = 0 ∧ KeepsRegsBut [x] s t ∧
      PcMoved 2 s t ∧ OnlyChanges [.v, .pc, .draws] s t)

/-! ## Control flow -/

/-- 1NNN (R81). -/
def Obligations.JumpReplacesPc : Prop :=
  ∀ (nnn : Addr12) (s : State), ∃ t : State, exec (.jp nnn) s = .next t ∧
    t.pc.toNat = nnn.toNat ∧ OnlyChanges [.pc] s t

/-- BNNN: nnn plus V0, not masked to 12 bits (D12; log entry 16). -/
def Obligations.JumpWithOffsetIsNotMasked : Prop :=
  ∀ (nnn : Addr12) (s : State), ∃ t : State, exec (.jpV0 nnn) s = .next t ∧
    t.pc.toNat = nnn.toNat + (s.reg 0).toNat ∧ OnlyChanges [.pc] s t

/-- 2NNN pushes its own address and jumps; with 16 returns pending it faults (the fault is D7's; log entry 13). -/
def Obligations.CallPushesItsOwnAddress : Prop :=
  ∀ (nnn : Addr12) (s : State),
    (∀ j : Fin 16, s.sp.val = j.val → ∃ t : State, exec (.call nnn) s = .next t ∧
      t.stack[j] = s.pc ∧ t.sp.val = j.val + 1 ∧ t.pc.toNat = nnn.toNat ∧
      (∀ k : Fin 16, k ≠ j → t.stack[k] = s.stack[k]) ∧ OnlyChanges [.stack, .sp, .pc] s t) ∧
    (s.sp.val = 16 → exec (.call nnn) s = .fault (.stackOverflow s.pc))

/-- 00EE pops the top slot, leaves every slot as it was, and goes to the popped value plus 2; with nothing pending it
faults (the fault is D7's; log entry 13). -/
def Obligations.ReturnGoesPastTheCall : Prop :=
  ∀ s : State,
    (∀ j : Fin 16, s.sp.val = j.val + 1 → ∃ t : State, exec .ret s = .next t ∧
      t.pc.toNat = (s.stack[j].toNat + 2) % 65536 ∧ t.sp.val = j.val ∧ OnlyChanges [.sp, .pc] s t) ∧
    (s.sp.val = 0 → exec .ret s = .fault (.stackUnderflow s.pc))

/-- CALL, then RET from any state whose stack is as the CALL left it: PC is past the CALL and SP is back. -/
def Obligations.CallThenReturn : Prop :=
  ∀ (nnn : Addr12) (s t u : State), exec (.call nnn) s = .next t → u.stack = t.stack → u.sp = t.sp →
    ∃ w : State, exec .ret u = .next w ∧ PcMoved 2 s w ∧ w.sp = s.sp

/-- 3XKK, 4XKK, 5XY0 and 9XY0: 4 bytes on when the condition holds, else 2 (R83, R84, R85, R86). -/
def Obligations.SkipsCompareRegisters : Prop :=
  ∀ (x y : RegIx) (kk : Byte) (s : State),
    (∃ t : State, exec (.seImm x kk) s = .next t ∧ PcSkipped (s.reg x = kk) s t ∧ OnlyChanges [.pc] s t) ∧
    (∃ t : State, exec (.sneImm x kk) s = .next t ∧ PcSkipped (s.reg x ≠ kk) s t ∧ OnlyChanges [.pc] s t) ∧
    (∃ t : State, exec (.seReg x y) s = .next t ∧ PcSkipped (s.reg x = s.reg y) s t ∧ OnlyChanges [.pc] s t) ∧
    (∃ t : State, exec (.sneReg x y) s = .next t ∧ PcSkipped (s.reg x ≠ s.reg y) s t ∧ OnlyChanges [.pc] s t)

/-! ## ALU -/

/-- 8XY0 to 8XY3: assign, OR, AND, XOR, bit by bit; VF is written only when x = 0xF (R89 to R92). -/
def Obligations.MoveAndLogic : Prop :=
  ∀ (x y : RegIx) (s : State),
    (∃ t : State, exec (.ldReg x y) s = .next t ∧ t.reg x = s.reg y ∧
      PcMoved 2 s t ∧ KeepsRegsBut [x] s t ∧ OnlyChanges [.v, .pc] s t) ∧
    (∃ t : State, exec (.orReg x y) s = .next t ∧
      (∀ b < 8, (t.reg x).getLsbD b = ((s.reg x).getLsbD b || (s.reg y).getLsbD b)) ∧
      PcMoved 2 s t ∧ KeepsRegsBut [x] s t ∧ OnlyChanges [.v, .pc] s t) ∧
    (∃ t : State, exec (.andReg x y) s = .next t ∧
      (∀ b < 8, (t.reg x).getLsbD b = ((s.reg x).getLsbD b && (s.reg y).getLsbD b)) ∧
      PcMoved 2 s t ∧ KeepsRegsBut [x] s t ∧ OnlyChanges [.v, .pc] s t) ∧
    (∃ t : State, exec (.xorReg x y) s = .next t ∧
      (∀ b < 8, (t.reg x).getLsbD b = ((s.reg x).getLsbD b ^^ (s.reg y).getLsbD b)) ∧
      PcMoved 2 s t ∧ KeepsRegsBut [x] s t ∧ OnlyChanges [.v, .pc] s t)

/-- 8XY4. With x = 0xF only the carry remains (D3; log entry 10). -/
def Obligations.AddSetsCarry : Prop :=
  ∀ (x y : RegIx) (s : State), ∃ t : State, exec (.addReg x y) s = .next t ∧
    (x ≠ VF → (t.reg x).toNat = ((s.reg x).toNat + (s.reg y).toNat) % 256) ∧
    (t.reg VF).toNat = (if (s.reg x).toNat + (s.reg y).toNat > 255 then 1 else 0) ∧
    PcMoved 2 s t ∧ KeepsRegsBut [x, VF] s t ∧ OnlyChanges [.v, .pc] s t

/-- 8XY5 and 8XY7: the difference modulo 256, VF = 1 iff strictly greater. With x = 0xF only the flag remains (D3; log
entry 10). -/
def Obligations.SubtractSetsNotBorrow : Prop :=
  ∀ (x y : RegIx) (s : State),
    (∃ t : State, exec (.sub x y) s = .next t ∧
      (x ≠ VF → ((t.reg x).toNat : Int) = (((s.reg x).toNat : Int) - (s.reg y).toNat) % 256) ∧
      (t.reg VF).toNat = (if (s.reg x).toNat > (s.reg y).toNat then 1 else 0) ∧
      PcMoved 2 s t ∧ KeepsRegsBut [x, VF] s t ∧ OnlyChanges [.v, .pc] s t) ∧
    (∃ t : State, exec (.subn x y) s = .next t ∧
      (x ≠ VF → ((t.reg x).toNat : Int) = (((s.reg y).toNat : Int) - (s.reg x).toNat) % 256) ∧
      (t.reg VF).toNat = (if (s.reg y).toNat > (s.reg x).toNat then 1 else 0) ∧
      PcMoved 2 s t ∧ KeepsRegsBut [x, VF] s t ∧ OnlyChanges [.v, .pc] s t)

/-- 8XY6 and 8XYE: Vy shifted by one into Vx, VF the bit shifted out. With x = 0xF only that bit remains (D3; log entry
10). -/
def Obligations.ShiftsTakeTheirSourceFromVy : Prop :=
  ∀ (x y : RegIx) (s : State),
    (∃ t : State, exec (.shr x y) s = .next t ∧
      (x ≠ VF → (t.reg x).toNat = (s.reg y).toNat / 2) ∧ (t.reg VF).toNat = (s.reg y).toNat % 2 ∧
      PcMoved 2 s t ∧ KeepsRegsBut [x, VF] s t ∧ OnlyChanges [.v, .pc] s t) ∧
    (∃ t : State, exec (.shl x y) s = .next t ∧
      (x ≠ VF → (t.reg x).toNat = (s.reg y).toNat * 2 % 256) ∧ (t.reg VF).toNat = (s.reg y).toNat / 128 ∧
      PcMoved 2 s t ∧ KeepsRegsBut [x, VF] s t ∧ OnlyChanges [.v, .pc] s t)

/-- The flag writers leave exactly 0 or 1 in VF, whatever x and y are (D3 when x = 0xF). -/
def Obligations.FlagWritersLeaveZeroOrOne : Prop :=
  ∀ (i : Instr) (s t : State), i.writesFlag = true → exec i s = .next t → t.reg VF = 0 ∨ t.reg VF = 1

/-! ## Graphics -/

/-- SetPixel: true modulo wrap, one cell flipped, the old value reported (R101). -/
def Obligations.SetPixelFlipsOneCell : Prop :=
  ∀ (fb : Framebuffer) (x y : Nat),
    (setPixel fb x y).2 = pixel fb (x % 64) (y % 32) ∧
    pixel (setPixel fb x y).1 (x % 64) (y % 32) = !pixel fb (x % 64) (y % 32) ∧
    ∀ cx < 64, ∀ cy < 32, ¬(cx = x % 64 ∧ cy = y % 32) → pixel (setPixel fb x y).1 cx cy = pixel fb cx cy

/-- 00E0. DRAW is set also when the screen was blank (D6; log entry 12). -/
def Obligations.ClearScreenClearsEveryCell : Prop :=
  ∀ s : State, ∃ t : State, exec .cls s = .next t ∧ (∀ x < 64, ∀ y < 32, pixel t.fb x y = false) ∧
    t.draw = true ∧ PcMoved 2 s t ∧ OnlyChanges [.fb, .draw, .pc] s t

/-- DXYN: each cell the sprite plots is flipped and no other; VF = 1 iff some plotted cell was 1; a run of rows that
leaves memory faults. The coordinates are read before VF is written (D4), no row is read for n = 0 (D5), DRAW is set
unconditionally (D6), bit 7 is leftmost (D23), the check comes first (D8; log entries 5, 11, 12, 14). -/
def Obligations.DrawSprite : Prop :=
  ∀ (x y : RegIx) (n : RowCount) (s : State),
    ((n.val = 0 ∨ s.base + n.val ≤ 0x1000) → ∃ t : State, exec (.drw x y n) s = .next t ∧
      (∀ cx < 64, ∀ cy < 32,
        (SpritePlots s s.base n.val (s.reg x).toNat (s.reg y).toNat cx cy → pixel t.fb cx cy = !pixel s.fb cx cy) ∧
        (¬SpritePlots s s.base n.val (s.reg x).toNat (s.reg y).toNat cx cy → pixel t.fb cx cy = pixel s.fb cx cy)) ∧
      ((∃ cx cy : Nat, SpritePlots s s.base n.val (s.reg x).toNat (s.reg y).toNat cx cy ∧ pixel s.fb cx cy = true) →
        t.reg VF = 1) ∧
      ((∀ cx cy : Nat, SpritePlots s s.base n.val (s.reg x).toNat (s.reg y).toNat cx cy → pixel s.fb cx cy = false) →
        t.reg VF = 0) ∧
      t.draw = true ∧ PcMoved 2 s t ∧ KeepsRegsBut [VF] s t ∧ OnlyChanges [.v, .pc, .fb, .draw] s t) ∧
    (¬(n.val = 0 ∨ s.base + n.val ≤ 0x1000) →
      exec (.drw x y n) s = .fault (.outOfRange (max s.base 0x1000)))

/-- Drawing the same sprite again at the same place restores the framebuffer; the second draw collides iff some plotted
cell was 0 at the start. (44_graphics.md's own derived sentence drops that condition; log entry 26.) -/
def Obligations.DrawingTwiceRestoresTheScreen : Prop :=
  ∀ (x y : RegIx) (n : RowCount) (s t u : State), exec (.drw x y n) s = .next t →
    u.fb = t.fb → u.v = s.v → u.i = s.i → (∀ a : Nat, u.byte a = s.byte a) →
    ∃ w : State, exec (.drw x y n) u = .next w ∧
      (∀ cx < 64, ∀ cy < 32, pixel w.fb cx cy = pixel s.fb cx cy) ∧
      (w.reg VF = 1 ↔
        ∃ cx cy : Nat, SpritePlots s s.base n.val (s.reg x).toNat (s.reg y).toNat cx cy ∧ pixel s.fb cx cy = false)

/-! ## Input -/

/-- AnyDown answers the lowest pressed key, or none (R110). -/
def Obligations.LowestPressedKeyWins : Prop :=
  ∀ s : State,
    (∀ k : RegIx, s.anyDown = some k ↔ s.key[k] = true ∧ ∀ j : RegIx, j < k → s.key[j] = false) ∧
    (s.anyDown = none ↔ ∀ k : RegIx, s.key[k] = false)

/-- EX9E and EXA1: a value above 15 is a key that is not down, no fault (R112, R113). -/
def Obligations.SkipsOnKey : Prop :=
  ∀ (x : RegIx) (s : State),
    (∃ t : State, exec (.skp x) s = .next t ∧ PcSkipped (KeyDown s (s.reg x).toNat) s t ∧ OnlyChanges [.pc] s t) ∧
    (∃ t : State, exec (.sknp x) s = .next t ∧ PcSkipped (¬KeyDown s (s.reg x).toNat) s t ∧ OnlyChanges [.pc] s t)

/-- FX0A: a key that is down completes it at once (D14, D32; log entry 17); with every key up the CPU starts to wait,
PC unchanged. -/
def Obligations.WaitForKey : Prop :=
  ∀ (x : RegIx) (s : State),
    (∀ k : RegIx, s.key[k] = true → (∀ j : RegIx, j < k → s.key[j] = false) →
      ∃ t : State, exec (.ldVxK x) s = .next t ∧ (t.reg x).toNat = k.val ∧ PcMoved 2 s t ∧
        KeepsRegsBut [x] s t ∧ OnlyChanges [.v, .pc] s t) ∧
    ((∀ k : RegIx, s.key[k] = false) →
      ∃ t : State, exec (.ldVxK x) s = .next t ∧ t.run = .waitingForKey ∧ t.waitx = x ∧
        OnlyChanges [.run, .waitx] s t)

/-- With every key up a waiting CPU stays as it is for any number of cycles. -/
def Obligations.WaitHangsWithoutAKey : Prop :=
  ∀ (s : State) (rs : List Byte), s.run = .waitingForKey → (∀ k : RegIx, s.key[k] = false) →
    hostRun s (rs.map .cycle) = .ok (s, rs.map fun _ => .ok)

/-! ## Timers, index and transfer -/

/-- FX07 and FX15 (R115, R116). -/
def Obligations.DelayTimerReadAndSet : Prop :=
  ∀ (x : RegIx) (s : State),
    (∃ t : State, exec (.ldVxDt x) s = .next t ∧ t.reg x = s.dt ∧ PcMoved 2 s t ∧
      KeepsRegsBut [x] s t ∧ OnlyChanges [.v, .pc] s t) ∧
    (∃ t : State, exec (.ldDtVx x) s = .next t ∧ t.dt = s.reg x ∧ PcMoved 2 s t ∧ OnlyChanges [.dt, .pc] s t)

/-- FX18; it answers no tone (D27; log entry 22). -/
def Obligations.SoundTimerSet : Prop :=
  ∀ (x : RegIx) (s : State), ∃ t : State, exec (.ldStVx x) s = .next t ∧ t.st = s.reg x ∧ PcMoved 2 s t ∧
    OnlyChanges [.st, .pc] s t

/-- FX1E modulo 65536 with no flag (D9), FX29 not masked to a digit (D10; log entry 15). -/
def Obligations.IndexArithmetic : Prop :=
  ∀ (x : RegIx) (s : State),
    (∃ t : State, exec (.addIVx x) s = .next t ∧ t.i.toNat = (s.i.toNat + (s.reg x).toNat) % 65536 ∧
      PcMoved 2 s t ∧ OnlyChanges [.i, .pc] s t) ∧
    (∃ t : State, exec (.ldFVx x) s = .next t ∧ t.i.toNat = (s.reg x).toNat * 5 ∧
      PcMoved 2 s t ∧ OnlyChanges [.i, .pc] s t)

/-- FX33: three digits at I, I+1, I+2 and no other byte, or a fault with the lowest invalid address and nothing written
(R120). -/
def Obligations.BcdStoresThreeDigits : Prop :=
  ∀ (x : RegIx) (s : State),
    (s.base + 2 ≤ 0xFFF → ∃ t : State, exec (.ldBVx x) s = .next t ∧
      (t.byte s.base).toNat = (s.reg x).toNat / 100 ∧
      (t.byte (s.base + 1)).toNat = (s.reg x).toNat / 10 % 10 ∧
      (t.byte (s.base + 2)).toNat = (s.reg x).toNat % 10 ∧
      (∀ a : Nat, ¬(s.base ≤ a ∧ a ≤ s.base + 2) → t.byte a = s.byte a) ∧
      PcMoved 2 s t ∧ OnlyChanges [.mem, .pc] s t) ∧
    (0xFFF < s.base + 2 → exec (.ldBVx x) s = .fault (.outOfRange (max s.base 0x1000)))

/-- FX55: V0..Vx at I..I+x and no other byte, I unchanged (D11; log entry 15), or a fault and nothing written. -/
def Obligations.BulkStore : Prop :=
  ∀ (x : RegIx) (s : State),
    (s.base + x.val ≤ 0xFFF → ∃ t : State, exec (.ldMemVx x) s = .next t ∧
      (∀ j : RegIx, j ≤ x → t.byte (s.base + j.val) = s.reg j) ∧
      (∀ a : Nat, ¬(s.base ≤ a ∧ a ≤ s.base + x.val) → t.byte a = s.byte a) ∧
      PcMoved 2 s t ∧ OnlyChanges [.mem, .pc] s t) ∧
    (0xFFF < s.base + x.val → exec (.ldMemVx x) s = .fault (.outOfRange (max s.base 0x1000)))

/-- FX65: V0..Vx from I..I+x and no other register, I unchanged (D11; log entry 15), or a fault and nothing loaded. -/
def Obligations.BulkLoad : Prop :=
  ∀ (x : RegIx) (s : State),
    (s.base + x.val ≤ 0xFFF → ∃ t : State, exec (.ldVxMem x) s = .next t ∧
      (∀ j : RegIx, j ≤ x → t.reg j = s.byte (s.base + j.val)) ∧
      (∀ j : RegIx, x < j → t.reg j = s.reg j) ∧
      PcMoved 2 s t ∧ OnlyChanges [.v, .pc] s t) ∧
    (0xFFF < s.base + x.val → exec (.ldVxMem x) s = .fault (.outOfRange (max s.base 0x1000)))

/-- Bytes stored by FX55 are what a later fetch of their address reads, with no fence. -/
def Obligations.StoredBytesAreFetched : Prop :=
  ∀ (x j k : RegIx) (s t u : State), exec (.ldMemVx x) s = .next t → (∀ a : Nat, u.byte a = t.byte a) →
    k.val = j.val + 1 → k ≤ x → u.pc.toNat = s.base + j.val →
    ∃ w : Word, fetchWord u = .ok w ∧ w.toNat = (s.reg j).toNat * 256 + (s.reg k).toNat

/-! ## Memory -/

/-- A byte written to a valid address, the font area included, is read back, and no other byte changes; an invalid
address is OutOfRange for both (R42, R43). -/
def Obligations.ByteWrittenIsReadBack : Prop :=
  ∀ (s : State) (a : Nat) (b : Byte),
    (a ≤ 0xFFF → (∃ t : State, storeRun s a [b] = .ok t ∧ loadRun t a 1 = .ok [b] ∧
        (∀ c : Nat, c ≠ a → t.byte c = s.byte c) ∧ OnlyChanges [.mem] s t) ∧
      loadRun s a 1 = .ok [s.byte a]) ∧
    (0xFFF < a → storeRun s a [b] = .error (.outOfRange a) ∧ loadRun s a 1 = .error (.outOfRange a))

/-! ## The whole machine -/

/-- A general register changes only by its listed writers: the instructions, a waiting cycle's V[WAITX], RESET and
LOAD. -/
def Obligations.RegistersChangeOnlyByTheirWriters : Prop :=
  (∀ (i : Instr) (s t : State) (j : RegIx), exec i s = .next t → i.writesReg j = false → t.reg j = s.reg j) ∧
  (∀ (s t : State) (j : RegIx), waitingCycle s = .next t → j ≠ s.waitx → t.reg j = s.reg j) ∧
  (∀ (c : Command) (s t : State) (r : Reply) (j : RegIx), c.keepsProgram = true → (∀ b : Byte, c ≠ .cycle b) →
    command c s = .next (t, r) → t.reg j = s.reg j)

/-- Every instruction changes only the parts listed for it: memory only by FX33 and FX55, the stack only by CALL and
RET, the framebuffer and DRAW only by 00E0 and DXYN, DT and ST only by FX15 and FX18, RUN and WAITX only by FX0A, no
key by any. -/
def Obligations.InstructionsChangeOnlyTheirParts : Prop :=
  ∀ (i : Instr) (s t : State), exec i s = .next t → OnlyChanges i.changes s t

/-- The state after reset meets the invariant. -/
def Obligations.ResetMeetsTheInvariant : Prop := State.Inv State.reset

/-- Every step keeps the invariant: the PC bound, the bound on live return addresses, canonical memory, and a waiting
CPU's PC and WAITX naming its FX0A. -/
def Obligations.StepKeepsTheInvariant : Prop := ∀ s t : State, s.Inv → step s = .next t → t.Inv

/-- Every run of host commands, in any interleaving, with any images and any random bytes, keeps the invariant. -/
def Obligations.HostRunsKeepTheInvariant : Prop :=
  ∀ (cs : List Command) (s u : State) (rs : List Reply), s.Inv → hostRun s cs = .ok (u, rs) → u.Inv

/-- After a fault the CPU is stuck: however the host interleaves any commands but RESET and LOAD, every later cycle
reports the same fault, and only timers, keys and DRAW have changed. -/
def Obligations.FaultRepeatsUntilResetOrLoad : Prop :=
  ∀ (cs : List Command) (s : State) (r : Byte) (f : Fault), cycle r s = .fault f →
    (∀ c ∈ cs, c.keepsProgram = true) →
    ∃ (u : State) (rs : List Reply), hostRun s cs = .ok (u, rs) ∧ (∀ r' : Byte, cycle r' u = .fault f) ∧
      OnlyChanges [.dt, .st, .key, .draw] s u

/-- Dead stack slots are unobservable: two states that differ only in them step to the same answer, up to dead slots. -/
def Obligations.DeadStackSlotsAreUnobservable : Prop :=
  ∀ s t : State, SameButDeadSlots s t → ResultsAgree (step s) (step t)

/-- From a self-jump every further cycle leaves the state as it is (D31; log entry 28). -/
def Obligations.SelfJumpIsTheEnd : Prop :=
  ∀ (s : State) (rs : List Byte), s.run = .running → ReachedEnd s →
    hostRun s (rs.map .cycle) = .ok (s, rs.map fun _ => .ok)

/-! ## The host's commands -/

/-- KEY_DOWN and KEY_UP: the one key, or InvalidKey and no change (R107, R108). -/
def Obligations.KeyCommandsSetOneKey : Prop :=
  ∀ (k : Int) (s : State),
    (∀ j : Fin 16, k = (j.val : Int) →
      (∃ t : State, command (.keyDown k) s = .next (t, .ok) ∧ t.key[j] = true ∧
        (∀ l : Fin 16, l ≠ j → t.key[l] = s.key[l]) ∧ OnlyChanges [.key] s t) ∧
      (∃ t : State, command (.keyUp k) s = .next (t, .ok) ∧ t.key[j] = false ∧
        (∀ l : Fin 16, l ≠ j → t.key[l] = s.key[l]) ∧ OnlyChanges [.key] s t)) ∧
    ((k < 0 ∨ 15 < k) →
      command (.keyDown k) s = .fault (.invalidKey k) ∧ command (.keyUp k) s = .fault (.invalidKey k))

/-- A press and a release between two cycles leave no trace. -/
def Obligations.PressThenReleaseLeavesNoTrace : Prop :=
  ∀ (k : Fin 16) (s : State), s.key[k] = false →
    hostRun s [.keyDown (k.val : Int), .keyUp (k.val : Int)] = .ok (s, [.ok, .ok])

/-- TICK: both counters down by one, floored at 0; the tone iff ST was 1 (that only TICK emits it is D27's); nothing
else, whatever RUN holds. -/
def Obligations.TickCountsDownAndMayEmitTheTone : Prop :=
  ∀ s : State, ∃ (t : State) (b : Bool), command .tick s = .next (t, .tone b) ∧
    t.dt.toNat = s.dt.toNat - 1 ∧ t.st.toNat = s.st.toNat - 1 ∧ (b = true ↔ s.st.toNat = 1) ∧
    OnlyChanges [.dt, .st] s t

/-- After m TICKs each timer has lost m, floored at 0, and exactly the tick that found ST at 1 emitted the tone. -/
def Obligations.TicksEmitTheToneOnce : Prop :=
  ∀ (m : Nat) (s : State), ∃ u : State,
    hostRun s (List.replicate m .tick) = .ok (u, (List.range m).map fun k => .tone (decide (s.st.toNat = k + 1))) ∧
    u.dt.toNat = s.dt.toNat - m ∧ u.st.toNat = s.st.toNat - m ∧ OnlyChanges [.dt, .st] s u

/-- RESET leaves every field of R17, memory too, at its reset value, from any state (RUN and WAITX are D16's; log entry
18), and a second RESET changes nothing. The FONT parameter stays (log entry 29); `draws` is the model's own and goes on
(log entry 2). -/
def Obligations.ResetCommandRestoresEveryField : Prop :=
  ∀ s : State, ∃ t : State, command .reset s = .next (t, .ok) ∧ command .reset t = .next (t, .ok) ∧
    (∀ j : RegIx, t.reg j = 0) ∧ t.i = 0 ∧ t.pc.toNat = 0x200 ∧ (∀ j : Fin 16, t.stack[j] = 0) ∧ t.sp.val = 0 ∧
    t.dt = 0 ∧ t.st = 0 ∧ t.draw = false ∧ t.run = .running ∧ t.waitx = 0 ∧ t.font = s.font ∧ FontThenZero t ∧
    (∀ x < 64, ∀ y < 32, pixel t.fb x y = false) ∧ (∀ k : Fin 16, t.key[k] = false) ∧ t.draws = s.draws

/-- After RESET memory is the block's FONT, whatever table that is, at 0x000..0x04F and zero elsewhere; so it is after
the first RESET of a block built with any FONT (20_memory.md section 2). That FONT is the argument of `resetWith` and
`blockCommand`, is kept in `font` and stays over RESET is the model's choice (log entry 29); that the first RESET answers
`State.resetWith font`, whose `draws` is 0, is too (log entry 1). -/
def Obligations.ResetMemoryIsFontThenZero : Prop :=
  (∀ s t : State, command .reset s = .next (t, .ok) → t.font = s.font ∧ FontThenZero t) ∧
  ∀ font : Config.Font, blockCommand font .reset none = .next (State.resetWith font, .ok) ∧
    (State.resetWith font).font = font ∧ FontThenZero (State.resetWith font)

/-- LOAD resets the block, then copies the image to 0x200; a longer image is refused (D20), and before the first RESET
or LOAD every other command is refused (D21; log entry 21). -/
def Obligations.LoadCopiesTheImage : Prop :=
  (∀ (bytes : List Byte) (s : State),
    (bytes.length ≤ 0xE00 → ∃ r t : State, command .reset s = .next (r, .ok) ∧
      command (.load bytes) s = .next (t, .ok) ∧ OnlyChanges [.mem] r t ∧
      (∀ (k : Nat) (h : k < bytes.length), t.byte (0x200 + k) = bytes[k]) ∧
      (∀ a : Nat, ¬(0x200 ≤ a ∧ a < 0x200 + bytes.length) → t.byte a = r.byte a)) ∧
    (0xE00 < bytes.length → command (.load bytes) s = .refused (.imageTooLong bytes.length))) ∧
  (∀ (font : Config.Font) (c : Command), c.keepsProgram = true → blockCommand font c none = .refused .beforeReset)

/-- READ_DRAW and SNAPSHOT answer DRAW and the 2048 cells, row-major (D19; log entry 22), and change nothing; CLEAR_DRAW
clears DRAW alone. -/
def Obligations.HostReadsScreenAndDrawFlag : Prop :=
  ∀ s : State,
    command .readDraw s = .next (s, .drawFlag s.draw) ∧
    (∃ t : State, command .clearDraw s = .next (t, .ok) ∧ t.draw = false ∧ OnlyChanges [.draw] s t) ∧
    (∃ cells : List Bool, command .snapshot s = .next (s, .cells cells) ∧ cells.length = 2048 ∧
      ∀ x < 64, ∀ y < 32, cells[y * 64 + x]? = some (pixel s.fb x y))
end

