-- ==== Sys2Proof/Laws/Decode.lean ====
section
/-! SUPPORT. Words, fields and formats as numbers, the fields of a formatted word, and words as bytes. -/

namespace Sys2Proof

/-! ### Fields as numbers (R56) -/

theorem fieldOp_toNat (w : Word) : (fieldOp w).toNat = w.toNat / 4096 := by
  have := w.isLt
  simp only [fieldOp, BitVec.extractLsb'_toNat, Nat.shiftRight_eq_div_pow]; omega

theorem fieldX_val (w : Word) : (fieldX w).val = w.toNat / 256 % 16 := by
  simp only [fieldX, BitVec.val_toFin, BitVec.extractLsb'_toNat, Nat.shiftRight_eq_div_pow]

theorem fieldY_val (w : Word) : (fieldY w).val = w.toNat / 16 % 16 := by
  simp only [fieldY, BitVec.val_toFin, BitVec.extractLsb'_toNat, Nat.shiftRight_eq_div_pow]

theorem fieldN_toNat (w : Word) : (fieldN w).toNat = w.toNat % 16 := by
  simp only [fieldN, BitVec.extractLsb'_toNat, Nat.shiftRight_eq_div_pow]; omega

theorem fieldKK_toNat (w : Word) : (fieldKK w).toNat = w.toNat % 256 := by
  simp only [fieldKK, BitVec.extractLsb'_toNat, Nat.shiftRight_eq_div_pow]; omega

theorem fieldNNN_toNat (w : Word) : (fieldNNN w).toNat = w.toNat % 4096 := by
  simp only [fieldNNN, BitVec.extractLsb'_toNat, Nat.shiftRight_eq_div_pow]; omega

/-! ### Formats as numbers (R57) -/

theorem append_toNat {m n : Nat} (a : BitVec m) (b : BitVec n) : (a ++ b).toNat = a.toNat * 2 ^ n + b.toNat := by
  rw [BitVec.toNat_append, ← Nat.shiftLeft_add_eq_or_of_lt b.isLt, Nat.shiftLeft_eq]

theorem formatNNN_toNat (op : BitVec 4) (nnn : Addr12) :
    (formatNNN op nnn).toNat = op.toNat * 4096 + nnn.toNat := append_toNat op nnn

theorem formatXKK_toNat (op : BitVec 4) (x : RegIx) (kk : Byte) :
    (formatXKK op x kk).toNat = op.toNat * 4096 + x.val * 256 + kk.toNat := by
  have h1 := append_toNat (op ++ (BitVec.ofFin x : BitVec 4)) kk
  have h2 := append_toNat op (BitVec.ofFin x : BitVec 4)
  have h3 : (formatXKK op x kk).toNat = (op ++ (BitVec.ofFin x : BitVec 4) ++ kk).toNat := rfl
  have h4 : (BitVec.ofFin x : BitVec 4).toNat = x.val := rfl
  omega

theorem formatXYN_toNat (op : BitVec 4) (x y : RegIx) (n : BitVec 4) :
    (formatXYN op x y n).toNat = op.toNat * 4096 + x.val * 256 + y.val * 16 + n.toNat := by
  have h1 := append_toNat (op ++ (BitVec.ofFin x : BitVec 4) ++ (BitVec.ofFin y : BitVec 4)) n
  have h2 := append_toNat (op ++ (BitVec.ofFin x : BitVec 4)) (BitVec.ofFin y : BitVec 4)
  have h3 := append_toNat op (BitVec.ofFin x : BitVec 4)
  have h4 : (formatXYN op x y n).toNat =
    (op ++ (BitVec.ofFin x : BitVec 4) ++ (BitVec.ofFin y : BitVec 4) ++ n).toNat := rfl
  have h5 : (BitVec.ofFin x : BitVec 4).toNat = x.val := rfl
  have h6 : (BitVec.ofFin y : BitVec 4).toNat = y.val := rfl
  omega

/-! ### Each field of each format -/

@[simp] theorem fieldOp_formatNNN (op : BitVec 4) (nnn : Addr12) : fieldOp (formatNNN op nnn) = op := by
  have := nnn.isLt
  apply BitVec.eq_of_toNat_eq; rw [fieldOp_toNat, formatNNN_toNat]; omega

@[simp] theorem fieldNNN_formatNNN (op : BitVec 4) (nnn : Addr12) : fieldNNN (formatNNN op nnn) = nnn := by
  have := nnn.isLt
  apply BitVec.eq_of_toNat_eq; rw [fieldNNN_toNat, formatNNN_toNat]; omega

@[simp] theorem fieldOp_formatXKK (op : BitVec 4) (x : RegIx) (kk : Byte) : fieldOp (formatXKK op x kk) = op := by
  have := kk.isLt
  apply BitVec.eq_of_toNat_eq; rw [fieldOp_toNat, formatXKK_toNat]; omega

@[simp] theorem fieldX_formatXKK (op : BitVec 4) (x : RegIx) (kk : Byte) : fieldX (formatXKK op x kk) = x := by
  have := kk.isLt
  apply Fin.ext; rw [fieldX_val, formatXKK_toNat]; omega

@[simp] theorem fieldKK_formatXKK (op : BitVec 4) (x : RegIx) (kk : Byte) : fieldKK (formatXKK op x kk) = kk := by
  have := kk.isLt
  apply BitVec.eq_of_toNat_eq; rw [fieldKK_toNat, formatXKK_toNat]; omega

@[simp] theorem fieldOp_formatXYN (op : BitVec 4) (x y : RegIx) (n : BitVec 4) :
    fieldOp (formatXYN op x y n) = op := by
  have := n.isLt
  apply BitVec.eq_of_toNat_eq; rw [fieldOp_toNat, formatXYN_toNat]; omega

@[simp] theorem fieldX_formatXYN (op : BitVec 4) (x y : RegIx) (n : BitVec 4) : fieldX (formatXYN op x y n) = x := by
  have := n.isLt
  apply Fin.ext; rw [fieldX_val, formatXYN_toNat]; omega

@[simp] theorem fieldY_formatXYN (op : BitVec 4) (x y : RegIx) (n : BitVec 4) : fieldY (formatXYN op x y n) = y := by
  have := n.isLt
  apply Fin.ext; rw [fieldY_val, formatXYN_toNat]; omega

@[simp] theorem fieldN_formatXYN (op : BitVec 4) (x y : RegIx) (n : BitVec 4) : fieldN (formatXYN op x y n) = n := by
  have := n.isLt
  apply BitVec.eq_of_toNat_eq; rw [fieldN_toNat, formatXYN_toNat]; omega

/-! ### Words and bytes (R46) -/

theorem wordOfBytes_toNat (hi lo : Byte) : (wordOfBytes hi lo).toNat = hi.toNat * 256 + lo.toNat :=
  append_toNat hi lo

@[simp] theorem wordOfBytes_high_low (w : Word) : wordOfBytes (highByte w) (lowByte w) = w := by
  have := w.isLt
  apply BitVec.eq_of_toNat_eq
  rw [wordOfBytes_toNat]
  simp only [highByte, lowByte, BitVec.extractLsb'_toNat, Nat.shiftRight_eq_div_pow]
  omega

/-- What decoding an instruction's bytes answers. -/
theorem decodeBytes_encodeBytes (i : Instr) (rest : List Byte) :
    decodeBytes (encodeBytes i ++ rest) = (decode (encode i)).map (·, rest) := by
  cases h : decode (encode i) <;> simp [encodeBytes, decodeBytes, Except.map, h]

end Sys2Proof
end

