-- ==== Sys2Proof/Laws/State.lean ====
section
/-! SUPPORT. One lemma per field per named update of State: what the update leaves in that field. -/

namespace Sys2Proof.Machine


/-! ### `setReg` -/

@[simp] theorem State.setReg_v (s : State) (x : RegIx) (b : Byte) : (s.setReg x b).v = s.v.set x b := rfl
@[simp] theorem State.setReg_i (s : State) (x : RegIx) (b : Byte) : (s.setReg x b).i = s.i := rfl
@[simp] theorem State.setReg_pc (s : State) (x : RegIx) (b : Byte) : (s.setReg x b).pc = s.pc := rfl
@[simp] theorem State.setReg_stack (s : State) (x : RegIx) (b : Byte) : (s.setReg x b).stack = s.stack := rfl
@[simp] theorem State.setReg_sp (s : State) (x : RegIx) (b : Byte) : (s.setReg x b).sp = s.sp := rfl
@[simp] theorem State.setReg_dt (s : State) (x : RegIx) (b : Byte) : (s.setReg x b).dt = s.dt := rfl
@[simp] theorem State.setReg_st (s : State) (x : RegIx) (b : Byte) : (s.setReg x b).st = s.st := rfl
@[simp] theorem State.setReg_mem (s : State) (x : RegIx) (b : Byte) : (s.setReg x b).mem = s.mem := rfl
@[simp] theorem State.setReg_fb (s : State) (x : RegIx) (b : Byte) : (s.setReg x b).fb = s.fb := rfl
@[simp] theorem State.setReg_key (s : State) (x : RegIx) (b : Byte) : (s.setReg x b).key = s.key := rfl
@[simp] theorem State.setReg_draw (s : State) (x : RegIx) (b : Byte) : (s.setReg x b).draw = s.draw := rfl
@[simp] theorem State.setReg_run (s : State) (x : RegIx) (b : Byte) : (s.setReg x b).run = s.run := rfl
@[simp] theorem State.setReg_waitx (s : State) (x : RegIx) (b : Byte) : (s.setReg x b).waitx = s.waitx := rfl
@[simp] theorem State.setReg_font (s : State) (x : RegIx) (b : Byte) : (s.setReg x b).font = s.font := rfl
@[simp] theorem State.setReg_draws (s : State) (x : RegIx) (b : Byte) : (s.setReg x b).draws = s.draws := rfl

/-! ### `setRegsTo` -/

@[simp] theorem State.setRegsTo_v (s : State) (x : RegIx) (bs : List Byte) : (s.setRegsTo x bs).v = Vector.ofFn fun j : RegIx => if j ≤ x then bs.getD j.val 0 else s.v[j] := rfl
@[simp] theorem State.setRegsTo_i (s : State) (x : RegIx) (bs : List Byte) : (s.setRegsTo x bs).i = s.i := rfl
@[simp] theorem State.setRegsTo_pc (s : State) (x : RegIx) (bs : List Byte) : (s.setRegsTo x bs).pc = s.pc := rfl
@[simp] theorem State.setRegsTo_stack (s : State) (x : RegIx) (bs : List Byte) : (s.setRegsTo x bs).stack = s.stack := rfl
@[simp] theorem State.setRegsTo_sp (s : State) (x : RegIx) (bs : List Byte) : (s.setRegsTo x bs).sp = s.sp := rfl
@[simp] theorem State.setRegsTo_dt (s : State) (x : RegIx) (bs : List Byte) : (s.setRegsTo x bs).dt = s.dt := rfl
@[simp] theorem State.setRegsTo_st (s : State) (x : RegIx) (bs : List Byte) : (s.setRegsTo x bs).st = s.st := rfl
@[simp] theorem State.setRegsTo_mem (s : State) (x : RegIx) (bs : List Byte) : (s.setRegsTo x bs).mem = s.mem := rfl
@[simp] theorem State.setRegsTo_fb (s : State) (x : RegIx) (bs : List Byte) : (s.setRegsTo x bs).fb = s.fb := rfl
@[simp] theorem State.setRegsTo_key (s : State) (x : RegIx) (bs : List Byte) : (s.setRegsTo x bs).key = s.key := rfl
@[simp] theorem State.setRegsTo_draw (s : State) (x : RegIx) (bs : List Byte) : (s.setRegsTo x bs).draw = s.draw := rfl
@[simp] theorem State.setRegsTo_run (s : State) (x : RegIx) (bs : List Byte) : (s.setRegsTo x bs).run = s.run := rfl
@[simp] theorem State.setRegsTo_waitx (s : State) (x : RegIx) (bs : List Byte) : (s.setRegsTo x bs).waitx = s.waitx := rfl
@[simp] theorem State.setRegsTo_font (s : State) (x : RegIx) (bs : List Byte) : (s.setRegsTo x bs).font = s.font := rfl
@[simp] theorem State.setRegsTo_draws (s : State) (x : RegIx) (bs : List Byte) : (s.setRegsTo x bs).draws = s.draws := rfl

/-! ### `addPc` -/

@[simp] theorem State.addPc_v (s : State) (n : Word) : (s.addPc n).v = s.v := rfl
@[simp] theorem State.addPc_i (s : State) (n : Word) : (s.addPc n).i = s.i := rfl
@[simp] theorem State.addPc_pc (s : State) (n : Word) : (s.addPc n).pc = s.pc + n := rfl
@[simp] theorem State.addPc_stack (s : State) (n : Word) : (s.addPc n).stack = s.stack := rfl
@[simp] theorem State.addPc_sp (s : State) (n : Word) : (s.addPc n).sp = s.sp := rfl
@[simp] theorem State.addPc_dt (s : State) (n : Word) : (s.addPc n).dt = s.dt := rfl
@[simp] theorem State.addPc_st (s : State) (n : Word) : (s.addPc n).st = s.st := rfl
@[simp] theorem State.addPc_mem (s : State) (n : Word) : (s.addPc n).mem = s.mem := rfl
@[simp] theorem State.addPc_fb (s : State) (n : Word) : (s.addPc n).fb = s.fb := rfl
@[simp] theorem State.addPc_key (s : State) (n : Word) : (s.addPc n).key = s.key := rfl
@[simp] theorem State.addPc_draw (s : State) (n : Word) : (s.addPc n).draw = s.draw := rfl
@[simp] theorem State.addPc_run (s : State) (n : Word) : (s.addPc n).run = s.run := rfl
@[simp] theorem State.addPc_waitx (s : State) (n : Word) : (s.addPc n).waitx = s.waitx := rfl
@[simp] theorem State.addPc_font (s : State) (n : Word) : (s.addPc n).font = s.font := rfl
@[simp] theorem State.addPc_draws (s : State) (n : Word) : (s.addPc n).draws = s.draws := rfl

/-! ### `advance` -/

@[simp] theorem State.advance_v (s : State) : (s.advance).v = s.v := rfl
@[simp] theorem State.advance_i (s : State) : (s.advance).i = s.i := rfl
@[simp] theorem State.advance_pc (s : State) : (s.advance).pc = s.pc + 2 := rfl
@[simp] theorem State.advance_stack (s : State) : (s.advance).stack = s.stack := rfl
@[simp] theorem State.advance_sp (s : State) : (s.advance).sp = s.sp := rfl
@[simp] theorem State.advance_dt (s : State) : (s.advance).dt = s.dt := rfl
@[simp] theorem State.advance_st (s : State) : (s.advance).st = s.st := rfl
@[simp] theorem State.advance_mem (s : State) : (s.advance).mem = s.mem := rfl
@[simp] theorem State.advance_fb (s : State) : (s.advance).fb = s.fb := rfl
@[simp] theorem State.advance_key (s : State) : (s.advance).key = s.key := rfl
@[simp] theorem State.advance_draw (s : State) : (s.advance).draw = s.draw := rfl
@[simp] theorem State.advance_run (s : State) : (s.advance).run = s.run := rfl
@[simp] theorem State.advance_waitx (s : State) : (s.advance).waitx = s.waitx := rfl
@[simp] theorem State.advance_font (s : State) : (s.advance).font = s.font := rfl
@[simp] theorem State.advance_draws (s : State) : (s.advance).draws = s.draws := rfl

/-! ### `skipIf` -/

@[simp] theorem State.skipIf_v (s : State) (c : Bool) : (s.skipIf c).v = s.v := by cases c <;> rfl
@[simp] theorem State.skipIf_i (s : State) (c : Bool) : (s.skipIf c).i = s.i := by cases c <;> rfl
@[simp] theorem State.skipIf_pc (s : State) (c : Bool) : (s.skipIf c).pc = s.pc + if c then 4 else 2 := by cases c <;> rfl
@[simp] theorem State.skipIf_stack (s : State) (c : Bool) : (s.skipIf c).stack = s.stack := by cases c <;> rfl
@[simp] theorem State.skipIf_sp (s : State) (c : Bool) : (s.skipIf c).sp = s.sp := by cases c <;> rfl
@[simp] theorem State.skipIf_dt (s : State) (c : Bool) : (s.skipIf c).dt = s.dt := by cases c <;> rfl
@[simp] theorem State.skipIf_st (s : State) (c : Bool) : (s.skipIf c).st = s.st := by cases c <;> rfl
@[simp] theorem State.skipIf_mem (s : State) (c : Bool) : (s.skipIf c).mem = s.mem := by cases c <;> rfl
@[simp] theorem State.skipIf_fb (s : State) (c : Bool) : (s.skipIf c).fb = s.fb := by cases c <;> rfl
@[simp] theorem State.skipIf_key (s : State) (c : Bool) : (s.skipIf c).key = s.key := by cases c <;> rfl
@[simp] theorem State.skipIf_draw (s : State) (c : Bool) : (s.skipIf c).draw = s.draw := by cases c <;> rfl
@[simp] theorem State.skipIf_run (s : State) (c : Bool) : (s.skipIf c).run = s.run := by cases c <;> rfl
@[simp] theorem State.skipIf_waitx (s : State) (c : Bool) : (s.skipIf c).waitx = s.waitx := by cases c <;> rfl
@[simp] theorem State.skipIf_font (s : State) (c : Bool) : (s.skipIf c).font = s.font := by cases c <;> rfl
@[simp] theorem State.skipIf_draws (s : State) (c : Bool) : (s.skipIf c).draws = s.draws := by cases c <;> rfl

/-! ### `jump` -/

@[simp] theorem State.jump_v (s : State) (a : Word) : (s.jump a).v = s.v := rfl
@[simp] theorem State.jump_i (s : State) (a : Word) : (s.jump a).i = s.i := rfl
@[simp] theorem State.jump_pc (s : State) (a : Word) : (s.jump a).pc = a := rfl
@[simp] theorem State.jump_stack (s : State) (a : Word) : (s.jump a).stack = s.stack := rfl
@[simp] theorem State.jump_sp (s : State) (a : Word) : (s.jump a).sp = s.sp := rfl
@[simp] theorem State.jump_dt (s : State) (a : Word) : (s.jump a).dt = s.dt := rfl
@[simp] theorem State.jump_st (s : State) (a : Word) : (s.jump a).st = s.st := rfl
@[simp] theorem State.jump_mem (s : State) (a : Word) : (s.jump a).mem = s.mem := rfl
@[simp] theorem State.jump_fb (s : State) (a : Word) : (s.jump a).fb = s.fb := rfl
@[simp] theorem State.jump_key (s : State) (a : Word) : (s.jump a).key = s.key := rfl
@[simp] theorem State.jump_draw (s : State) (a : Word) : (s.jump a).draw = s.draw := rfl
@[simp] theorem State.jump_run (s : State) (a : Word) : (s.jump a).run = s.run := rfl
@[simp] theorem State.jump_waitx (s : State) (a : Word) : (s.jump a).waitx = s.waitx := rfl
@[simp] theorem State.jump_font (s : State) (a : Word) : (s.jump a).font = s.font := rfl
@[simp] theorem State.jump_draws (s : State) (a : Word) : (s.jump a).draws = s.draws := rfl

/-! ### `push` -/

@[simp] theorem State.push_v (s : State) (h : s.sp.val < 16) (a : Word) : (s.push h a).v = s.v := rfl
@[simp] theorem State.push_i (s : State) (h : s.sp.val < 16) (a : Word) : (s.push h a).i = s.i := rfl
@[simp] theorem State.push_pc (s : State) (h : s.sp.val < 16) (a : Word) : (s.push h a).pc = s.pc := rfl
@[simp] theorem State.push_stack (s : State) (h : s.sp.val < 16) (a : Word) : (s.push h a).stack = s.stack.set s.sp.val a := rfl
@[simp] theorem State.push_sp (s : State) (h : s.sp.val < 16) (a : Word) : (s.push h a).sp = ⟨s.sp.val + 1, by omega⟩ := rfl
@[simp] theorem State.push_dt (s : State) (h : s.sp.val < 16) (a : Word) : (s.push h a).dt = s.dt := rfl
@[simp] theorem State.push_st (s : State) (h : s.sp.val < 16) (a : Word) : (s.push h a).st = s.st := rfl
@[simp] theorem State.push_mem (s : State) (h : s.sp.val < 16) (a : Word) : (s.push h a).mem = s.mem := rfl
@[simp] theorem State.push_fb (s : State) (h : s.sp.val < 16) (a : Word) : (s.push h a).fb = s.fb := rfl
@[simp] theorem State.push_key (s : State) (h : s.sp.val < 16) (a : Word) : (s.push h a).key = s.key := rfl
@[simp] theorem State.push_draw (s : State) (h : s.sp.val < 16) (a : Word) : (s.push h a).draw = s.draw := rfl
@[simp] theorem State.push_run (s : State) (h : s.sp.val < 16) (a : Word) : (s.push h a).run = s.run := rfl
@[simp] theorem State.push_waitx (s : State) (h : s.sp.val < 16) (a : Word) : (s.push h a).waitx = s.waitx := rfl
@[simp] theorem State.push_font (s : State) (h : s.sp.val < 16) (a : Word) : (s.push h a).font = s.font := rfl
@[simp] theorem State.push_draws (s : State) (h : s.sp.val < 16) (a : Word) : (s.push h a).draws = s.draws := rfl

/-! ### `dropTop` -/

@[simp] theorem State.dropTop_v (s : State) : (s.dropTop).v = s.v := rfl
@[simp] theorem State.dropTop_i (s : State) : (s.dropTop).i = s.i := rfl
@[simp] theorem State.dropTop_pc (s : State) : (s.dropTop).pc = s.pc := rfl
@[simp] theorem State.dropTop_stack (s : State) : (s.dropTop).stack = s.stack := rfl
@[simp] theorem State.dropTop_sp (s : State) : (s.dropTop).sp = ⟨s.sp.val - 1, by omega⟩ := rfl
@[simp] theorem State.dropTop_dt (s : State) : (s.dropTop).dt = s.dt := rfl
@[simp] theorem State.dropTop_st (s : State) : (s.dropTop).st = s.st := rfl
@[simp] theorem State.dropTop_mem (s : State) : (s.dropTop).mem = s.mem := rfl
@[simp] theorem State.dropTop_fb (s : State) : (s.dropTop).fb = s.fb := rfl
@[simp] theorem State.dropTop_key (s : State) : (s.dropTop).key = s.key := rfl
@[simp] theorem State.dropTop_draw (s : State) : (s.dropTop).draw = s.draw := rfl
@[simp] theorem State.dropTop_run (s : State) : (s.dropTop).run = s.run := rfl
@[simp] theorem State.dropTop_waitx (s : State) : (s.dropTop).waitx = s.waitx := rfl
@[simp] theorem State.dropTop_font (s : State) : (s.dropTop).font = s.font := rfl
@[simp] theorem State.dropTop_draws (s : State) : (s.dropTop).draws = s.draws := rfl

/-! ### `setWithFlag` -/

@[simp] theorem State.setWithFlag_v (s : State) (x : RegIx) (b : Byte) (c : Bool) : (s.setWithFlag x b c).v = (s.v.set x b).set VF (flagByte c) := rfl
@[simp] theorem State.setWithFlag_i (s : State) (x : RegIx) (b : Byte) (c : Bool) : (s.setWithFlag x b c).i = s.i := rfl
@[simp] theorem State.setWithFlag_pc (s : State) (x : RegIx) (b : Byte) (c : Bool) : (s.setWithFlag x b c).pc = s.pc := rfl
@[simp] theorem State.setWithFlag_stack (s : State) (x : RegIx) (b : Byte) (c : Bool) : (s.setWithFlag x b c).stack = s.stack := rfl
@[simp] theorem State.setWithFlag_sp (s : State) (x : RegIx) (b : Byte) (c : Bool) : (s.setWithFlag x b c).sp = s.sp := rfl
@[simp] theorem State.setWithFlag_dt (s : State) (x : RegIx) (b : Byte) (c : Bool) : (s.setWithFlag x b c).dt = s.dt := rfl
@[simp] theorem State.setWithFlag_st (s : State) (x : RegIx) (b : Byte) (c : Bool) : (s.setWithFlag x b c).st = s.st := rfl
@[simp] theorem State.setWithFlag_mem (s : State) (x : RegIx) (b : Byte) (c : Bool) : (s.setWithFlag x b c).mem = s.mem := rfl
@[simp] theorem State.setWithFlag_fb (s : State) (x : RegIx) (b : Byte) (c : Bool) : (s.setWithFlag x b c).fb = s.fb := rfl
@[simp] theorem State.setWithFlag_key (s : State) (x : RegIx) (b : Byte) (c : Bool) : (s.setWithFlag x b c).key = s.key := rfl
@[simp] theorem State.setWithFlag_draw (s : State) (x : RegIx) (b : Byte) (c : Bool) : (s.setWithFlag x b c).draw = s.draw := rfl
@[simp] theorem State.setWithFlag_run (s : State) (x : RegIx) (b : Byte) (c : Bool) : (s.setWithFlag x b c).run = s.run := rfl
@[simp] theorem State.setWithFlag_waitx (s : State) (x : RegIx) (b : Byte) (c : Bool) : (s.setWithFlag x b c).waitx = s.waitx := rfl
@[simp] theorem State.setWithFlag_font (s : State) (x : RegIx) (b : Byte) (c : Bool) : (s.setWithFlag x b c).font = s.font := rfl
@[simp] theorem State.setWithFlag_draws (s : State) (x : RegIx) (b : Byte) (c : Bool) : (s.setWithFlag x b c).draws = s.draws := rfl

/-! ### `drawSprite` -/

@[simp] theorem State.drawSprite_v (s : State) (px py : Nat) (rows : List Byte) : (s.drawSprite px py rows).v = s.v.set VF (flagByte (plot s.fb (spritePixels px py rows)).2) := rfl
@[simp] theorem State.drawSprite_i (s : State) (px py : Nat) (rows : List Byte) : (s.drawSprite px py rows).i = s.i := rfl
@[simp] theorem State.drawSprite_pc (s : State) (px py : Nat) (rows : List Byte) : (s.drawSprite px py rows).pc = s.pc := rfl
@[simp] theorem State.drawSprite_stack (s : State) (px py : Nat) (rows : List Byte) : (s.drawSprite px py rows).stack = s.stack := rfl
@[simp] theorem State.drawSprite_sp (s : State) (px py : Nat) (rows : List Byte) : (s.drawSprite px py rows).sp = s.sp := rfl
@[simp] theorem State.drawSprite_dt (s : State) (px py : Nat) (rows : List Byte) : (s.drawSprite px py rows).dt = s.dt := rfl
@[simp] theorem State.drawSprite_st (s : State) (px py : Nat) (rows : List Byte) : (s.drawSprite px py rows).st = s.st := rfl
@[simp] theorem State.drawSprite_mem (s : State) (px py : Nat) (rows : List Byte) : (s.drawSprite px py rows).mem = s.mem := rfl
@[simp] theorem State.drawSprite_fb (s : State) (px py : Nat) (rows : List Byte) : (s.drawSprite px py rows).fb = (plot s.fb (spritePixels px py rows)).1 := rfl
@[simp] theorem State.drawSprite_key (s : State) (px py : Nat) (rows : List Byte) : (s.drawSprite px py rows).key = s.key := rfl
@[simp] theorem State.drawSprite_draw (s : State) (px py : Nat) (rows : List Byte) : (s.drawSprite px py rows).draw = true := rfl
@[simp] theorem State.drawSprite_run (s : State) (px py : Nat) (rows : List Byte) : (s.drawSprite px py rows).run = s.run := rfl
@[simp] theorem State.drawSprite_waitx (s : State) (px py : Nat) (rows : List Byte) : (s.drawSprite px py rows).waitx = s.waitx := rfl
@[simp] theorem State.drawSprite_font (s : State) (px py : Nat) (rows : List Byte) : (s.drawSprite px py rows).font = s.font := rfl
@[simp] theorem State.drawSprite_draws (s : State) (px py : Nat) (rows : List Byte) : (s.drawSprite px py rows).draws = s.draws := rfl

/-! ### `setBytes` -/

@[simp] theorem State.setBytes_v (s : State) (a : Nat) (bs : List Byte) : (s.setBytes a bs).v = s.v := rfl
@[simp] theorem State.setBytes_i (s : State) (a : Nat) (bs : List Byte) : (s.setBytes a bs).i = s.i := rfl
@[simp] theorem State.setBytes_pc (s : State) (a : Nat) (bs : List Byte) : (s.setBytes a bs).pc = s.pc := rfl
@[simp] theorem State.setBytes_stack (s : State) (a : Nat) (bs : List Byte) : (s.setBytes a bs).stack = s.stack := rfl
@[simp] theorem State.setBytes_sp (s : State) (a : Nat) (bs : List Byte) : (s.setBytes a bs).sp = s.sp := rfl
@[simp] theorem State.setBytes_dt (s : State) (a : Nat) (bs : List Byte) : (s.setBytes a bs).dt = s.dt := rfl
@[simp] theorem State.setBytes_st (s : State) (a : Nat) (bs : List Byte) : (s.setBytes a bs).st = s.st := rfl
@[simp] theorem State.setBytes_mem (s : State) (a : Nat) (bs : List Byte) : (s.setBytes a bs).mem = Memory.putRun s.font s.mem a bs := rfl
@[simp] theorem State.setBytes_fb (s : State) (a : Nat) (bs : List Byte) : (s.setBytes a bs).fb = s.fb := rfl
@[simp] theorem State.setBytes_key (s : State) (a : Nat) (bs : List Byte) : (s.setBytes a bs).key = s.key := rfl
@[simp] theorem State.setBytes_draw (s : State) (a : Nat) (bs : List Byte) : (s.setBytes a bs).draw = s.draw := rfl
@[simp] theorem State.setBytes_run (s : State) (a : Nat) (bs : List Byte) : (s.setBytes a bs).run = s.run := rfl
@[simp] theorem State.setBytes_waitx (s : State) (a : Nat) (bs : List Byte) : (s.setBytes a bs).waitx = s.waitx := rfl
@[simp] theorem State.setBytes_font (s : State) (a : Nat) (bs : List Byte) : (s.setBytes a bs).font = s.font := rfl
@[simp] theorem State.setBytes_draws (s : State) (a : Nat) (bs : List Byte) : (s.setBytes a bs).draws = s.draws := rfl

/-! ### `placeWord` -/

@[simp] theorem State.placeWord_v (s : State) (a : Nat) (w : Word) : (s.placeWord a w).v = s.v := rfl
@[simp] theorem State.placeWord_i (s : State) (a : Nat) (w : Word) : (s.placeWord a w).i = s.i := rfl
@[simp] theorem State.placeWord_pc (s : State) (a : Nat) (w : Word) : (s.placeWord a w).pc = s.pc := rfl
@[simp] theorem State.placeWord_stack (s : State) (a : Nat) (w : Word) : (s.placeWord a w).stack = s.stack := rfl
@[simp] theorem State.placeWord_sp (s : State) (a : Nat) (w : Word) : (s.placeWord a w).sp = s.sp := rfl
@[simp] theorem State.placeWord_dt (s : State) (a : Nat) (w : Word) : (s.placeWord a w).dt = s.dt := rfl
@[simp] theorem State.placeWord_st (s : State) (a : Nat) (w : Word) : (s.placeWord a w).st = s.st := rfl
@[simp] theorem State.placeWord_mem (s : State) (a : Nat) (w : Word) : (s.placeWord a w).mem = Memory.putRun s.font s.mem a [highByte w, lowByte w] := rfl
@[simp] theorem State.placeWord_fb (s : State) (a : Nat) (w : Word) : (s.placeWord a w).fb = s.fb := rfl
@[simp] theorem State.placeWord_key (s : State) (a : Nat) (w : Word) : (s.placeWord a w).key = s.key := rfl
@[simp] theorem State.placeWord_draw (s : State) (a : Nat) (w : Word) : (s.placeWord a w).draw = s.draw := rfl
@[simp] theorem State.placeWord_run (s : State) (a : Nat) (w : Word) : (s.placeWord a w).run = s.run := rfl
@[simp] theorem State.placeWord_waitx (s : State) (a : Nat) (w : Word) : (s.placeWord a w).waitx = s.waitx := rfl
@[simp] theorem State.placeWord_font (s : State) (a : Nat) (w : Word) : (s.placeWord a w).font = s.font := rfl
@[simp] theorem State.placeWord_draws (s : State) (a : Nat) (w : Word) : (s.placeWord a w).draws = s.draws := rfl

/-! ### `ticked` -/

@[simp] theorem State.ticked_v (s : State) : (s.ticked).v = s.v := rfl
@[simp] theorem State.ticked_i (s : State) : (s.ticked).i = s.i := rfl
@[simp] theorem State.ticked_pc (s : State) : (s.ticked).pc = s.pc := rfl
@[simp] theorem State.ticked_stack (s : State) : (s.ticked).stack = s.stack := rfl
@[simp] theorem State.ticked_sp (s : State) : (s.ticked).sp = s.sp := rfl
@[simp] theorem State.ticked_dt (s : State) : (s.ticked).dt = countDown s.dt := rfl
@[simp] theorem State.ticked_st (s : State) : (s.ticked).st = countDown s.st := rfl
@[simp] theorem State.ticked_mem (s : State) : (s.ticked).mem = s.mem := rfl
@[simp] theorem State.ticked_fb (s : State) : (s.ticked).fb = s.fb := rfl
@[simp] theorem State.ticked_key (s : State) : (s.ticked).key = s.key := rfl
@[simp] theorem State.ticked_draw (s : State) : (s.ticked).draw = s.draw := rfl
@[simp] theorem State.ticked_run (s : State) : (s.ticked).run = s.run := rfl
@[simp] theorem State.ticked_waitx (s : State) : (s.ticked).waitx = s.waitx := rfl
@[simp] theorem State.ticked_font (s : State) : (s.ticked).font = s.font := rfl
@[simp] theorem State.ticked_draws (s : State) : (s.ticked).draws = s.draws := rfl

/-! ### `resetFrom` -/

@[simp] theorem State.resetFrom_v (s : State) : (s.resetFrom).v = State.reset.v := rfl
@[simp] theorem State.resetFrom_i (s : State) : (s.resetFrom).i = State.reset.i := rfl
@[simp] theorem State.resetFrom_pc (s : State) : (s.resetFrom).pc = State.reset.pc := rfl
@[simp] theorem State.resetFrom_stack (s : State) : (s.resetFrom).stack = State.reset.stack := rfl
@[simp] theorem State.resetFrom_sp (s : State) : (s.resetFrom).sp = State.reset.sp := rfl
@[simp] theorem State.resetFrom_dt (s : State) : (s.resetFrom).dt = State.reset.dt := rfl
@[simp] theorem State.resetFrom_st (s : State) : (s.resetFrom).st = State.reset.st := rfl
@[simp] theorem State.resetFrom_mem (s : State) : (s.resetFrom).mem = [] := rfl
@[simp] theorem State.resetFrom_fb (s : State) : (s.resetFrom).fb = State.reset.fb := rfl
@[simp] theorem State.resetFrom_key (s : State) : (s.resetFrom).key = State.reset.key := rfl
@[simp] theorem State.resetFrom_draw (s : State) : (s.resetFrom).draw = State.reset.draw := rfl
@[simp] theorem State.resetFrom_run (s : State) : (s.resetFrom).run = State.reset.run := rfl
@[simp] theorem State.resetFrom_waitx (s : State) : (s.resetFrom).waitx = State.reset.waitx := rfl
@[simp] theorem State.resetFrom_font (s : State) : (s.resetFrom).font = s.font := rfl
@[simp] theorem State.resetFrom_draws (s : State) : (s.resetFrom).draws = s.draws := rfl

end Sys2Proof.Machine
end

