-- ==== Sys2Proof/Laws/Memory.lean ====
section
/-! SUPPORT. The laws of memory: read after write, the canonical form that every write keeps, equal contents are equal
lists, and what the run check and the two checked accesses answer. -/

namespace Sys2Proof.Machine

variable {F : Config.Font}

/-! ### Read after write -/

theorem resetByte_font {a : Nat} (h : a < 80) : resetByte F a = F[a] := dif_pos h

theorem resetByte_zero {a : Nat} (h : 80 ≤ a) : resetByte F a = 0 := dif_neg (Nat.not_lt.2 h)

@[simp] theorem Memory.get_nil (a : Nat) : Memory.get F [] a = resetByte F a := rfl

theorem Memory.get_cons (c : Host.Cell) (m : Memory) (a : Nat) :
    Memory.get F (c :: m) a = if a = c.1 then c.2 else Memory.get F m a := rfl

/-- A write sets its own byte and leaves every other byte alone. -/
theorem Memory.get_put (m : Memory) (a : Nat) (b : Byte) (c : Nat) :
    Memory.get F (Memory.put F m a b) c = if c = a then b else Memory.get F m c := by
  induction m with
  | nil =>
    by_cases hb : b = resetByte F a <;> by_cases hc : c = a <;> simp [Memory.put, Memory.get, hb, hc]
  | cons e m ih =>
    obtain ⟨a', b'⟩ := e
    by_cases h : a = a'
    · subst h
      rw [Memory.put, if_pos rfl, ih, Memory.get_cons]
      by_cases hc : c = a <;> simp [hc]
    · by_cases hlt : a < a' ∧ b ≠ resetByte F a
      · by_cases hc : c = a <;> simp [Memory.put, Memory.get, h, hlt, hc]
      · by_cases hc : c = a
        · subst hc; simp [Memory.put, Memory.get, h, hlt, ih]
        · simp [Memory.put, Memory.get, h, hlt, ih, hc]

/-- A run of writes sets its own bytes and leaves every other byte alone. -/
theorem Memory.get_putRun (bs : List Byte) (m : Memory) (base c : Nat) :
    Memory.get F (Memory.putRun F m base bs) c =
      if h : base ≤ c ∧ c < base + bs.length then bs[c - base]'(by omega) else Memory.get F m c := by
  induction bs generalizing m base with
  | nil =>
    have : ¬ (base ≤ c ∧ c < base) := by omega
    simp [Memory.putRun, this]
  | cons b bs ih =>
    rw [Memory.putRun, ih, Memory.get_put]
    by_cases hc : c = base
    · subst hc; simp
    · by_cases h : base + 1 ≤ c ∧ c < base + 1 + bs.length
      · have h' : base ≤ c ∧ c < base + (b :: bs).length := by simp only [List.length_cons]; omega
        rw [dif_pos h, dif_pos h']
        obtain ⟨k, rfl⟩ : ∃ k, c = base + 1 + k := ⟨c - (base + 1), by omega⟩
        simp [show base + 1 + k - base = k + 1 by omega, show base + 1 + k - (base + 1) = k by omega]
      · have h' : ¬ (base ≤ c ∧ c < base + (b :: bs).length) := by simp only [List.length_cons]; omega
        rw [dif_neg h, dif_neg h', if_neg hc]

/-- The same, of the state's memory. -/
theorem State.byte_setBytes (s : State) (base : Nat) (bs : List Byte) (c : Nat) :
    (s.setBytes base bs).byte c =
      if h : base ≤ c ∧ c < base + bs.length then bs[c - base]'(by omega) else s.byte c :=
  Memory.get_putRun bs s.mem base c

/-! ### The canonical form -/

theorem Memory.wf_cons (a : Nat) (b : Byte) (m : Memory) :
    Memory.wf F ((a, b) :: m) = true ↔
      a < Config.memSize ∧ b ≠ resetByte F a ∧ (∀ c ∈ m, a < c.1) ∧ Memory.wf F m = true := by
  simp [Memory.wf, and_assoc]

/-- A write adds no entry but its own, and that one only if it differs from the unlisted byte. -/
theorem Memory.mem_put {m : Memory} {a : Nat} {b : Byte} {c : Host.Cell} (h : c ∈ Memory.put F m a b) :
    c ∈ m ∨ (c = (a, b) ∧ b ≠ resetByte F a) := by
  induction m with
  | nil =>
    by_cases hb : b = resetByte F a
    · simp [Memory.put, hb] at h
    · simpa [Memory.put, hb] using h
  | cons e m ih =>
    obtain ⟨a', b'⟩ := e
    rw [Memory.put] at h
    split at h
    · exact (ih h).imp_left (List.mem_cons_of_mem _)
    · split at h
      · rename_i hins
        exact (List.mem_cons.1 h).symm.imp_right fun h => ⟨h, hins.2⟩
      · rcases List.mem_cons.1 h with h | h
        · exact .inl (h ▸ List.mem_cons_self)
        · exact (ih h).imp_left (List.mem_cons_of_mem _)

/-- Every write keeps the canonical form. -/
theorem Memory.put_wf {m : Memory} (h : Memory.wf F m = true) {a : Nat} (ha : a < Config.memSize) (b : Byte) :
    Memory.wf F (Memory.put F m a b) = true := by
  induction m with
  | nil =>
    by_cases hb : b = resetByte F a
    · simp [Memory.put, hb, Memory.wf]
    · simpa [Memory.put, hb, Memory.wf] using ha
  | cons e m ih =>
    obtain ⟨a', b'⟩ := e
    obtain ⟨ha', hb', hlt, hm⟩ := (Memory.wf_cons a' b' m).1 h
    rw [Memory.put]
    split
    · exact ih hm
    · rename_i hne
      split
      · rename_i hins
        refine (Memory.wf_cons a b _).2 ⟨ha, hins.2, fun c hc => ?_, h⟩
        rcases List.mem_cons.1 hc with rfl | hc
        · exact hins.1
        · exact Nat.lt_trans hins.1 (hlt c hc)
      · rename_i hins
        refine (Memory.wf_cons a' b' _).2 ⟨ha', hb', fun c hc => ?_, ih hm⟩
        rcases Memory.mem_put hc with hc' | ⟨rfl, hb⟩
        · exact hlt c hc'
        · have : ¬ a < a' := fun h => hins ⟨h, hb⟩
          show a' < a
          omega

/-- Every run of writes inside MEM keeps the canonical form. -/
theorem Memory.putRun_wf (bs : List Byte) {m : Memory} (h : Memory.wf F m = true) {base : Nat}
    (hb : base + bs.length ≤ Config.memSize) : Memory.wf F (Memory.putRun F m base bs) = true := by
  induction bs generalizing m base with
  | nil => exact h
  | cons b bs ih =>
    simp only [List.length_cons] at hb
    exact ih (Memory.put_wf h (by omega) b) (by omega)

theorem Memory.reset_wf : Memory.wf F (State.resetWith F).mem = true := rfl

/-- An address below every listed one reads as the reset contents. -/
theorem Memory.get_of_lt {m : Memory} {a : Nat} (h : ∀ c ∈ m, a < c.1) : Memory.get F m a = resetByte F a := by
  induction m with
  | nil => rfl
  | cons e m ih =>
    have he : a ≠ e.1 := Nat.ne_of_lt (h e List.mem_cons_self)
    rw [Memory.get_cons, if_neg he]
    exact ih fun c hc => h c (List.mem_cons_of_mem _ hc)

/-- Canonical memories with the same bytes are the same list. -/
theorem Memory.ext_of_wf {m n : Memory} (hm : Memory.wf F m = true) (hn : Memory.wf F n = true)
    (h : ∀ a, Memory.get F m a = Memory.get F n a) : m = n := by
  induction m generalizing n with
  | nil =>
    cases n with
    | nil => rfl
    | cons e n =>
      obtain ⟨a, b⟩ := e
      have := h a
      exact absurd (by simpa [Memory.get_cons] using this.symm) ((Memory.wf_cons a b n).1 hn).2.1
  | cons e m ih =>
    obtain ⟨a, b⟩ := e
    obtain ⟨-, hb, hlt, hm'⟩ := (Memory.wf_cons a b m).1 hm
    cases n with
    | nil => exact absurd (by simpa [Memory.get_cons] using h a) hb
    | cons e' n =>
      obtain ⟨a', b'⟩ := e'
      obtain ⟨-, hb', hlt', hn'⟩ := (Memory.wf_cons a' b' n).1 hn
      have haa : a = a' := by
        rcases Nat.lt_trichotomy a a' with hl | rfl | hl
        · have := h a
          rw [Memory.get_cons, if_pos rfl, Memory.get_of_lt (m := (a', b') :: n)] at this
          · exact absurd this hb
          · intro c hc
            rcases List.mem_cons.1 hc with rfl | hc
            · exact hl
            · exact Nat.lt_trans hl (hlt' c hc)
        · rfl
        · have := h a'
          rw [Memory.get_cons (a', b'), if_pos rfl, Memory.get_of_lt (m := (a, b) :: m)] at this
          · exact absurd this.symm hb'
          · intro c hc
            rcases List.mem_cons.1 hc with rfl | hc
            · exact hl
            · exact Nat.lt_trans hl (hlt c hc)
      subst haa
      have hbb : b = b' := by simpa [Memory.get_cons] using h a
      subst hbb
      rw [ih hm' hn' fun c => ?_]
      by_cases hc : c = a
      · subst hc; rw [Memory.get_of_lt hlt, Memory.get_of_lt hlt']
      · simpa [Memory.get_cons, hc] using h c

/-! ### The run check and the checked accesses -/

/-- The run check passes iff the run is empty or ends inside MEM; else it names the lowest address above 0xFFF. -/
theorem firstInvalid_eq (base n : Nat) :
    firstInvalid base n = if n = 0 ∨ base + n ≤ 0x1000 then none else some (max base 0x1000) := by
  rw [firstInvalid]
  split
  · rename_i h
    rw [List.find?_eq_none]
    intro a ha
    obtain ⟨k, hk, rfl⟩ := List.mem_map.1 ha
    have := List.mem_range.1 hk
    simp only [Config.memSize, decide_eq_true_eq]
    omega
  · rename_i h
    rw [List.find?_eq_some_iff_append]
    refine ⟨by simp only [Config.memSize, decide_eq_true_eq]; omega,
      (List.range (max base 0x1000 - base)).map (base + ·),
      (List.range (n - (max base 0x1000 - base) - 1)).map (fun k => max base 0x1000 + 1 + k), ?_, ?_⟩
    · have e : List.range n = List.range (max base 0x1000 - base) ++
          (max base 0x1000 - base) ::
            (List.range (n - (max base 0x1000 - base) - 1)).map (fun k => max base 0x1000 - base + 1 + k) := by
        conv_lhs => rw [show n = (max base 0x1000 - base) + ((n - (max base 0x1000 - base) - 1) + 1) by omega]
        rw [List.range_add, List.range_succ_eq_map]
        simp only [List.map_cons, List.map_map]
        congr 2
        apply List.map_congr_left
        intro k _
        simp only [Function.comp_apply]; omega
      rw [e, List.map_append, List.map_cons, List.map_map]
      congr 2
      · omega
      · apply List.map_congr_left
        intro k _
        simp only [Function.comp_apply]; omega
    · intro a ha
      obtain ⟨k, hk, rfl⟩ := List.mem_map.1 ha
      have := List.mem_range.1 hk
      simp only [Config.memSize, Bool.not_eq_true', decide_eq_false_iff_not]
      omega

/-- What a checked read answers (R42, R44). -/
theorem loadRun_eq (s : State) (base n : Nat) :
    loadRun s base n = if n = 0 ∨ base + n ≤ 0x1000 then .ok ((List.range n).map fun k => s.byte (base + k))
      else .error (.outOfRange (max base 0x1000)) := by
  rw [loadRun, firstInvalid_eq]
  by_cases h : n = 0 ∨ base + n ≤ 0x1000
  · rw [if_pos h, if_pos h]
  · rw [if_neg h, if_neg h]

/-- What a checked write answers (R43, R44). -/
theorem storeRun_eq (s : State) (base : Nat) (bytes : List Byte) :
    storeRun s base bytes = if bytes.length = 0 ∨ base + bytes.length ≤ 0x1000
      then .ok (s.setBytes base bytes) else .error (.outOfRange (max base 0x1000)) := by
  rw [storeRun, firstInvalid_eq]
  by_cases h : bytes.length = 0 ∨ base + bytes.length ≤ 0x1000
  · rw [if_pos h, if_pos h]
  · rw [if_neg h, if_neg h]

/-- A checked write that is done changes memory alone, and keeps it canonical. -/
theorem storeRun_wf {s t : State} {base : Nat} {bytes : List Byte} (h : storeRun s base bytes = .ok t)
    (hm : Memory.wf s.font s.mem = true) : Memory.wf t.font t.mem = true := by
  rw [storeRun_eq] at h
  split at h
  · rename_i hr
    obtain rfl := (Except.ok.inj h).symm
    rcases hr with hr | hr
    · rw [List.length_eq_zero_iff.1 hr]; exact hm
    · exact Memory.putRun_wf bytes hm hr
  · cases h

/-- What fetch answers (R66). -/
theorem fetchWord_eq (s : State) :
    fetchWord s = if s.pc.toNat < 0xFFF then .ok (s.wordAt s.pc.toNat)
      else .error (.outOfRange (max s.pc.toNat 0x1000)) := by
  rw [fetchWord, firstInvalid_eq]
  by_cases h : s.pc.toNat < 0xFFF
  · rw [if_pos (by omega), if_pos h]
  · rw [if_neg (by omega), if_neg h]

end Sys2Proof.Machine
end

