-- ==== Sys2Proof/Laws/Ops.lean ====
section
/-! SUPPORT. What the shared operations over registers, the stack, the framebuffer, the keypad and a checked access do,
each said once. -/

namespace Sys2Proof.Machine

/-! ### Registers -/

theorem State.reg_eq (s : State) (x : RegIx) : s.reg x = s.v[x] := rfl

/-- A register write sets its own register and leaves the others alone. -/
theorem State.reg_setReg (s : State) (x : RegIx) (b : Byte) (j : RegIx) :
    (s.setReg x b).reg j = if j = x then b else s.reg j := by
  simp only [State.reg, State.setReg_v, Fin.getElem_fin]
  by_cases h : j = x
  · subst h; simp
  · rw [Vector.getElem_set_ne _ _ (fun hv => h (Fin.ext hv.symm)), if_neg h]

/-- A flag writer leaves the flag in VF, whatever x is (R88). -/
theorem State.reg_setWithFlag (s : State) (x : RegIx) (b : Byte) (c : Bool) (j : RegIx) :
    (s.setWithFlag x b c).reg j = if j = VF then flagByte c else if j = x then b else s.reg j := by
  rw [State.setWithFlag, State.reg_setReg, State.reg_setReg]

theorem State.reg_setRegsTo (s : State) (x : RegIx) (bs : List Byte) (j : RegIx) :
    (s.setRegsTo x bs).reg j = if j ≤ x then bs.getD j.val 0 else s.reg j := by
  simp [State.reg]

@[simp] theorem State.reg_advance (s : State) (j : RegIx) : s.advance.reg j = s.reg j := rfl
@[simp] theorem State.reg_addPc (s : State) (n : Word) (j : RegIx) : (s.addPc n).reg j = s.reg j := rfl
@[simp] theorem State.byte_advance (s : State) (a : Nat) : s.advance.byte a = s.byte a := rfl

theorem State.regsTo_length (s : State) (x : RegIx) : (s.regsTo x).length = x.val + 1 := by
  simp only [State.regsTo, List.length_take, Vector.length_toList]
  omega

theorem State.regsTo_getElem (s : State) (x : RegIx) (j : Nat) (h : j < (s.regsTo x).length) :
    (s.regsTo x)[j] = s.reg ⟨j, by rw [State.regsTo_length] at h; omega⟩ := by
  simp [State.regsTo, State.reg]

/-! ### Program counter -/

theorem State.addPc_toNat (s : State) (n : Word) : (s.addPc n).pc.toNat = (s.pc.toNat + n.toNat) % 65536 := by
  simp [BitVec.toNat_add]

theorem State.advance_toNat (s : State) : s.advance.pc.toNat = (s.pc.toNat + 2) % 65536 := State.addPc_toNat s 2

theorem State.skipIf_toNat (s : State) (c : Bool) :
    (s.skipIf c).pc.toNat = (s.pc.toNat + if c then 4 else 2) % 65536 := by
  cases c <;> simp [BitVec.toNat_add]

theorem zext16_toNat {n : Nat} (h : n ≤ 16) (b : BitVec n) : (zext16 b).toNat = b.toNat := by
  rw [BitVec.toNat_setWidth]
  exact Nat.mod_eq_of_lt (Nat.lt_of_lt_of_le b.isLt (Nat.pow_le_pow_right (by decide) h))

/-! ### Call stack -/

/-- A push stores at the old SP and leaves every other slot alone. -/
theorem State.push_slot (s : State) (h : s.sp.val < 16) (a : Word) (j : Fin 16) :
    (s.push h a).stack[j] = if j.val = s.sp.val then a else s.stack[j] := by
  simp only [State.push_stack, Fin.getElem_fin]
  by_cases hj : j.val = s.sp.val
  · rw [if_pos hj]; simp [hj]
  · rw [if_neg hj, Vector.getElem_set_ne _ _ (fun e => hj e.symm)]

/-- After a push the stack is not empty and its top is the pushed value. -/
theorem State.top_push (s : State) (h : s.sp.val < 16) (a : Word) :
    (s.push h a).top (Nat.succ_pos _) = a := by
  simp [State.top, State.push]

/-! ### Framebuffer -/

theorem pixel_lt (fb : Framebuffer) (x : Nat) (y : Fin 32) : pixel fb x y.val = fb[y].getLsbD x := by
  simp [pixel]

@[simp] theorem pixel_cleared (x y : Nat) : pixel clearedFb x y = false := by
  simp [pixel, clearedFb]

/-- Flipping a cell of the grid changes that cell alone. -/
theorem pixel_flipPixel (fb : Framebuffer) (x : Nat) (hx : x < 64) (y : Fin 32) (cx cy : Nat) :
    pixel (flipPixel fb x y) cx cy = (pixel fb cx cy ^^ decide (cx = x ∧ cy = y.val)) := by
  by_cases hcy : cy < 32
  · simp only [pixel, hcy, dite_true, flipPixel, Fin.getElem_fin]
    by_cases h : cy = y.val
    · subst h
      rw [Vector.getElem_set_self, BitVec.getLsbD_xor, BitVec.getLsbD_twoPow]
      by_cases hc : cx = x
      · subst hc; simp [hx]
      · simp [hc, Ne.symm hc]
    · have : y.val ≠ cy := fun e => h e.symm
      simp [this, h]
  · have : ¬ cy = y.val := by omega
    simp [pixel, hcy, this]

/-- What SetPixel does to every cell, and what it reports (R101). -/
theorem setPixel_pixel (fb : Framebuffer) (x y cx cy : Nat) :
    pixel (setPixel fb x y).1 cx cy = (pixel fb cx cy ^^ decide (cx = x % 64 ∧ cy = y % 32)) :=
  pixel_flipPixel fb (x % 64) (Nat.mod_lt _ (by decide)) _ cx cy

@[simp] theorem setPixel_hit (fb : Framebuffer) (x y : Nat) :
    (setPixel fb x y).2 = pixel fb (x % 64) (y % 32) := rfl

theorem plot_cons (fb : Framebuffer) (p : Nat × Nat) (ps : List (Nat × Nat)) :
    plot fb (p :: ps) = ((plot (setPixel fb p.1 p.2).1 ps).1,
      (setPixel fb p.1 p.2).2 || (plot (setPixel fb p.1 p.2).1 ps).2) := rfl

/-- Two framebuffers with the same cells are equal. -/
theorem framebuffer_ext {f g : Framebuffer} (h : ∀ x < 64, ∀ y < 32, pixel f x y = pixel g x y) : f = g := by
  apply Vector.ext
  intro y hy
  apply BitVec.eq_of_getLsbD_eq
  intro x hx
  simpa [pixel, hy] using h x hx y hy

/-! ### Keypad -/

theorem State.isDown_iff (s : State) (k : Nat) : s.isDown k = true ↔ ∃ h : k < 16, s.key[k] = true := by
  simp [State.isDown]

/-- AnyDown finds the lowest pressed key (R110). -/
theorem State.anyDown_eq_some (s : State) (k : RegIx) :
    s.anyDown = some k ↔ s.key[k] = true ∧ ∀ j : RegIx, j < k → s.key[j] = false := by
  have hl : (List.finRange 16).Pairwise (· < ·) := by decide
  constructor
  · intro h
    obtain ⟨hk, as, bs, e, hno⟩ := List.find?_eq_some_iff_append.1 h
    refine ⟨hk, fun j hj => ?_⟩
    have hjm : j ∈ as ++ k :: bs := e ▸ List.mem_finRange j
    rw [e] at hl
    rcases List.mem_append.1 hjm with hja | hjb
    · simpa using hno j hja
    · rcases List.mem_cons.1 hjb with rfl | hjb
      · exact absurd hj (Fin.lt_irrefl j)
      · have := (List.pairwise_cons.1 (List.pairwise_append.1 hl).2.1).1 j hjb
        exact absurd (Fin.lt_trans hj this) (Fin.lt_irrefl j)
  · rintro ⟨hk, hmin⟩
    rw [State.anyDown]
    cases h : (List.finRange 16).find? (fun k => s.key[k]) with
    | none => exact absurd hk (by simpa using List.find?_eq_none.1 h k (List.mem_finRange k))
    | some m =>
      obtain ⟨hm, as, bs, e, hno⟩ := List.find?_eq_some_iff_append.1 h
      rcases Nat.lt_trichotomy m.val k.val with hl' | he | hg
      · have := hmin m hl'; simp_all
      · rw [Fin.ext he]
      · have hkm : k ∈ as ++ m :: bs := e ▸ List.mem_finRange k
        rw [e] at hl
        rcases List.mem_append.1 hkm with hka | hkb
        · have := hno k hka; simp_all
        · rcases List.mem_cons.1 hkb with rfl | hkb
          · rfl
          · have := (List.pairwise_cons.1 (List.pairwise_append.1 hl).2.1).1 k hkb
            exact absurd (Fin.lt_trans this hg) (Fin.lt_irrefl m)

theorem State.anyDown_eq_none (s : State) : s.anyDown = none ↔ ∀ j : RegIx, s.key[j] = false := by
  simp [State.anyDown, List.find?_eq_none]

/-! ### Going on from a checked operation -/

/-- An answer that goes on comes from a check that passed. -/
theorem orRaise_next {α : Type} {e : Except Fault α} {k : α → Result} {t : State} :
    orRaise e k = .next t ↔ ∃ a, e = .ok a ∧ k a = .next t := by
  cases e <;> simp [orRaise, raise]

/-- A fault is the check's own, or what follows raises it. -/
theorem orRaise_fault {α : Type} {e : Except Fault α} {k : α → Result} {f : Fault} :
    orRaise e k = .fault f ↔ e = .error f ∨ ∃ a, e = .ok a ∧ k a = .fault f := by
  cases e <;> simp [orRaise, raise]

end Sys2Proof.Machine
end

