-- ==== Sys2Proof/Laws/Graphics.lean ====
section
/-! SUPPORT. Sprites: which pixels a sprite has, that no two of them land on one cell, and what plotting distinct cells
does (spec/44_graphics.md R101, R102, R104). -/

namespace Sys2Proof.Machine

/-- The cell a pixel lands on (R101). -/
def cellOf (p : Nat × Nat) : Nat × Nat := (p.1 % 64, p.2 % 32)

/-- Plotting pixels that land on distinct cells flips exactly those cells. -/
theorem plot_pixel {ps : List (Nat × Nat)} (hd : (ps.map cellOf).Nodup) (fb : Framebuffer) (cx cy : Nat) :
    pixel (plot fb ps).1 cx cy = (pixel fb cx cy ^^ decide ((cx, cy) ∈ ps.map cellOf)) := by
  induction ps generalizing fb with
  | nil => simp [plot]
  | cons p ps ih =>
    obtain ⟨hp, hd⟩ := List.nodup_cons.1 hd
    rw [plot_cons, ih hd, setPixel_pixel, List.map_cons]
    by_cases hc : (cx, cy) = cellOf p
    · have h1 : cx = p.1 % 64 ∧ cy = p.2 % 32 := by simpa [cellOf] using hc
      have h2 : (cx, cy) ∉ ps.map cellOf := hc ▸ hp
      have h3 : (cx, cy) ∈ cellOf p :: ps.map cellOf := hc ▸ List.mem_cons_self
      rw [decide_eq_true h1, decide_eq_false h2, decide_eq_true h3, Bool.xor_false]
    · have h1 : ¬(cx = p.1 % 64 ∧ cy = p.2 % 32) := fun h => hc (Prod.ext h.1 h.2)
      simp [h1, hc]

/-- Plotting distinct cells collides iff one of them was set before. -/
theorem plot_hit {ps : List (Nat × Nat)} (hd : (ps.map cellOf).Nodup) (fb : Framebuffer) :
    (plot fb ps).2 = true ↔ ∃ c ∈ ps.map cellOf, pixel fb c.1 c.2 = true := by
  induction ps generalizing fb with
  | nil => simp [plot]
  | cons p ps ih =>
    obtain ⟨hp, hd⟩ := List.nodup_cons.1 hd
    rw [plot_cons, Bool.or_eq_true, ih hd, setPixel_hit, List.map_cons]
    have same : ∀ c ∈ ps.map cellOf, pixel (setPixel fb p.1 p.2).1 c.1 c.2 = pixel fb c.1 c.2 := by
      intro c hc
      have : ¬(c.1 = p.1 % 64 ∧ c.2 = p.2 % 32) := fun h => hp ((Prod.ext h.1 h.2 : c = cellOf p) ▸ hc)
      rw [setPixel_pixel]; simp [this]
    constructor
    · rintro (h | ⟨c, hc, h⟩)
      · exact ⟨cellOf p, List.mem_cons_self, h⟩
      · exact ⟨c, List.mem_cons_of_mem _ hc, same c hc ▸ h⟩
    · rintro ⟨c, hc, h⟩
      rcases List.mem_cons.1 hc with rfl | hc
      · exact .inl h
      · exact .inr ⟨c, hc, (same c hc).symm ▸ h⟩

theorem mem_rowColumns (b : Byte) (c : Nat) : c ∈ rowColumns b ↔ c < 8 ∧ b.getLsbD (7 - c) = true := by
  simp [rowColumns]

/-- A sprite's pixels: the set bits of its rows (R102, R104). -/
theorem mem_spritePixels (rows : List Byte) (px py : Nat) (p : Nat × Nat) :
    p ∈ spritePixels px py rows ↔
      ∃ (r : Nat) (h : r < rows.length), ∃ c < 8, rows[r].getLsbD (7 - c) = true ∧ p = (px + c, py + r) := by
  induction rows generalizing py with
  | nil => simp [spritePixels]
  | cons b rows ih =>
    simp only [spritePixels, List.mem_append, List.mem_map, mem_rowColumns, ih]
    constructor
    · rintro (⟨c, ⟨hc, hb⟩, rfl⟩ | ⟨r, hr, c, hc, hb, rfl⟩)
      · exact ⟨0, Nat.succ_pos _, c, hc, hb, rfl⟩
      · exact ⟨r + 1, Nat.succ_lt_succ hr, c, hc, hb, by rw [Nat.add_assoc, Nat.add_comm 1 r]⟩
    · rintro ⟨r, hr, c, hc, hb, rfl⟩
      cases r with
      | zero => exact .inl ⟨c, ⟨hc, hb⟩, rfl⟩
      | succ r => exact .inr ⟨r, Nat.lt_of_succ_lt_succ hr, c, hc, hb, by rw [Nat.add_assoc, Nat.add_comm 1 r]⟩

/-- No two pixels of one sprite land on the same cell: it is smaller than the grid (R104). -/
theorem spritePixels_nodup (rows : List Byte) (px py : Nat) (h : rows.length ≤ 32) :
    ((spritePixels px py rows).map cellOf).Nodup := by
  induction rows generalizing py with
  | nil => simp [spritePixels]
  | cons b rows ih =>
    simp only [List.length_cons] at h
    rw [spritePixels, List.map_append, List.nodup_append]
    refine ⟨?_, ih (py + 1) (by omega), ?_⟩
    · rw [List.map_map]
      refine List.Nodup.map_on ?_ (List.Nodup.filter _ List.nodup_range)
      intro c hc d hd e
      have hc := ((mem_rowColumns b c).1 hc).1
      have hd := ((mem_rowColumns b d).1 hd).1
      have : (px + c) % 64 = (px + d) % 64 := congrArg Prod.fst e
      omega
    · intro c hc d hd e
      obtain ⟨p, hp, rfl⟩ := List.mem_map.1 hc
      obtain ⟨q, hq, rfl⟩ := List.mem_map.1 hd
      obtain ⟨k, -, rfl⟩ := List.mem_map.1 hp
      obtain ⟨r, hr, l, -, -, rfl⟩ := (mem_spritePixels rows px (py + 1) q).1 hq
      have : py % 32 = (py + 1 + r) % 32 := congrArg Prod.snd e
      omega

end Sys2Proof.Machine
end

