-- ==== Sys2Proof/Laws/Step.lean ====
section
/-! SUPPORT. What fetch, a step, a cycle and a host command can do, each said once; and what the fetch lands on where
the host places a word. -/

namespace Sys2Proof.Machine

/-! ### Fetch -/

/-- An instruction is fetched iff PC can fetch and the word there decodes. -/
theorem fetchInstr_ok {s : State} {i : Instr} :
    fetchInstr s = .ok i ↔ s.pc.toNat < 0xFFF ∧ decode (s.wordAt s.pc.toNat) = .ok i := by
  rw [fetchInstr, fetchWord_eq]
  by_cases h : s.pc.toNat < 0xFFF
  · rw [if_pos h]
    cases hd : decode (s.wordAt s.pc.toNat) <;> simp [h, hd]
  · simp [h]

/-- Fetch and decode read PC and memory (with the font it is kept under), and nothing else. -/
theorem fetchInstr_congr {s t : State} (hpc : t.pc = s.pc) (hmem : t.mem = s.mem)
    (hfont : t.font = s.font) : fetchInstr t = fetchInstr s := by
  simp only [fetchInstr, fetchWord, State.wordAt, State.byte, hpc, hmem, hfont]

/-- The word of a fetch as a number (R46). -/
theorem State.wordAt_toNat (s : State) (a : Nat) :
    (s.wordAt a).toNat = (s.byte a).toNat * 256 + (s.byte (a + 1)).toNat := wordOfBytes_toNat _ _

/-! ### A step and a cycle -/

theorem step_running {s : State} (h : s.run = .running) : step s = orRaise (fetchInstr s) fun i => exec i s := by
  simp [step, h]

theorem step_waiting {s : State} (h : s.run = .waitingForKey) : step s = waitingCycle s := by
  simp [step, h]

theorem cycle_running {s : State} (h : s.run = .running) (r : Byte) :
    cycle r s = orRaise (fetchInstr s) fun i => executeWith r i s := by
  simp [cycle, h]

theorem cycle_waiting {s : State} (h : s.run = .waitingForKey) (r : Byte) : cycle r s = waitingCycle s := by
  simp [cycle, h]

/-- Every step that goes on executed the instruction at PC, or polled the keys. -/
theorem step_cases {s t : State} (h : step s = .next t) :
    (s.run = .running ∧ ∃ i, fetchInstr s = .ok i ∧ exec i s = .next t) ∨
    (s.run = .waitingForKey ∧ waitingCycle s = .next t) := by
  cases hr : s.run with
  | running => exact .inl ⟨rfl, orRaise_next.1 (step_running hr ▸ h)⟩
  | waitingForKey => exact .inr ⟨rfl, step_waiting hr ▸ h⟩

/-- The same for a cycle with any random byte. -/
theorem cycle_cases {s t : State} {r : Byte} (h : cycle r s = .next t) :
    (s.run = .running ∧ ∃ i, fetchInstr s = .ok i ∧ executeWith r i s = .next t) ∨
    (s.run = .waitingForKey ∧ waitingCycle s = .next t) := by
  cases hr : s.run with
  | running => exact .inl ⟨rfl, orRaise_next.1 (cycle_running hr r ▸ h)⟩
  | waitingForKey => exact .inr ⟨rfl, cycle_waiting hr r ▸ h⟩

/-- With a random byte an instruction does what it does without one, but for CXKK. -/
theorem executeWith_cases (r : Byte) (i : Instr) (s : State) :
    executeWith r i s = exec i s ∨ ∃ x kk, i = .rnd x kk ∧ executeWith r i s = rndWith r x kk s := by
  cases i <;> first | exact .inl rfl | exact .inr ⟨_, _, rfl, rfl⟩

/-- A waiting cycle goes on with the lowest pressed key, or stays. -/
theorem waitingCycle_cases (s : State) :
    (∃ k, s.anyDown = some k ∧
      waitingCycle s = .next { (s.setReg s.waitx (keyByte k)).advance with run := .running }) ∨
    (s.anyDown = none ∧ waitingCycle s = .next s) := by
  rw [waitingCycle]
  cases h : s.anyDown with
  | none => exact .inr ⟨rfl, rfl⟩
  | some k => exact .inl ⟨k, rfl, rfl⟩

@[simp] theorem keyByte_toNat (k : RegIx) : (keyByte k).toNat = k.val := by
  rw [keyByte, BitVec.toNat_ofNat]; omega

/-! ### The host's commands -/

theorem hostRun_cons_next {s t : State} {c : Command} {r : Reply} (h : command c s = .next (t, r))
    (cs : List Command) : hostRun s (c :: cs) = (hostRun t cs).map fun p => (p.1, r :: p.2) := by
  simp only [hostRun, h]
  cases hostRun t cs <;> rfl

theorem hostRun_cons_fault {s : State} {c : Command} {f : Fault} (h : command c s = .fault f) (cs : List Command) :
    hostRun s (c :: cs) = (hostRun s cs).map fun p => (p.1, .fault f :: p.2) := by
  simp only [hostRun, h]
  cases hostRun s cs <;> rfl

theorem hostRun_cons_refused {s : State} {c : Command} {e : Refusal} (h : command c s = .refused e)
    (cs : List Command) : hostRun s (c :: cs) = .error e := by
  simp only [hostRun, h]

/-- After RESET, memory is the block's FONT, then zero (R39). -/
theorem State.resetFrom_fontThenZero (s : State) : FontThenZero s.resetFrom :=
  ⟨fun _ h => resetByte_font h, fun _ h _ => resetByte_zero h⟩

/-- So it is in the state after the first reset of a block with any FONT. -/
theorem State.resetWith_fontThenZero (font : Config.Font) : FontThenZero (State.resetWith font) :=
  ⟨fun _ h => resetByte_font h, fun _ h _ => resetByte_zero h⟩

/-- A key command sets one key, or is an InvalidKey. -/
theorem setKey_cases (k : Int) (b : Bool) (s : State) :
    (∃ j : Fin 16, k = (j.val : Int) ∧ setKey k b s = .next ({ s with key := s.key.set j.val b }, .ok)) ∨
    ((k < 0 ∨ 15 < k) ∧ setKey k b s = .fault (.invalidKey k)) := by
  by_cases h : wellFormedKey k = true
  · have hk : 0 ≤ k ∧ k ≤ 15 := by simpa [wellFormedKey] using h
    refine .inl ⟨⟨k.toNat, by omega⟩, by simp only; omega, ?_⟩
    rw [setKey, dif_pos h]
  · have hk : ¬(0 ≤ k ∧ k ≤ 15) := by simpa [wellFormedKey] using h
    exact .inr ⟨by omega, by rw [setKey, dif_neg h]⟩

theorem load_eq {bytes : List Byte} (h : bytes.length ≤ 0xE00) (s : State) :
    load bytes s = .next (s.resetFrom.setBytes 0x200 bytes, .ok) := by
  simp [load, wellFormedImage, h]

theorem load_refused {bytes : List Byte} (h : 0xE00 < bytes.length) (s : State) :
    load bytes s = .refused (.imageTooLong bytes.length) := by
  have : ¬ bytes.length ≤ 0xE00 := by omega
  simp [load, wellFormedImage, this]

theorem countDown_toNat (b : Byte) : (countDown b).toNat = b.toNat - 1 := by
  rw [countDown]
  split
  · rename_i h; simp [h]
  · rename_i h
    have h0 : b.toNat ≠ 0 := fun e => h (BitVec.eq_of_toNat_eq (by simpa using e))
    have := b.isLt
    rw [BitVec.toNat_sub, show (1 : Byte).toNat = 1 from rfl]
    omega

/-! ### Where the host places a word -/

/-- The placed word is what the next fetch reads, and no other byte changes. -/
theorem State.withFetchWord_fetch (s : State) (w : Word) (h : s.pc.toNat < 0xFFF) :
    fetchWord (s.withFetchWord 16 w.toNat) = .ok w := by
  have hw : tableWord 16 w.toNat = w := by
    have := w.isLt
    apply BitVec.eq_of_toNat_eq
    rw [tableWord, BitVec.toNat_ofNat]; omega
  have hpc : (s.withFetchWord 16 w.toNat).pc = s.pc := rfl
  rw [fetchWord_eq, hpc, if_pos h]
  simp [State.wordAt, State.byte, State.withFetchWord, hw, Memory.putRun, Memory.get_put]

theorem State.withFetchWord_byte (s : State) (n w a : Nat) (h : a ≠ s.pc.toNat ∧ a ≠ s.pc.toNat + 1) :
    (s.withFetchWord n w).byte a = s.byte a := by
  simp [State.byte, State.withFetchWord, Memory.putRun, Memory.get_put, h.1, h.2]

end Sys2Proof.Machine
end

