-- ==== Sys2Proof/Laws/Exec.lean ====
section
/-! SUPPORT. One equation per instruction that checks before it acts: where it goes on, and with what state; where it
faults, and with what. The other meanings are one line each. -/

namespace Sys2Proof.Machine

theorem execRet_pos {s : State} (h : 0 < s.sp.val) : execRet s = .next (s.dropTop.jump (s.top h + 2)) := by
  rw [execRet, dif_pos h]

theorem execRet_empty {s : State} (h : s.sp.val = 0) : execRet s = .fault (.stackUnderflow s.pc) := by
  rw [execRet, dif_neg (by omega)]; rfl

theorem execCall_lt {s : State} (h : s.sp.val < 16) (nnn : Addr12) :
    execCall nnn s = .next ((s.push h s.pc).jump (zext16 nnn)) := by
  rw [execCall, dif_pos h]

theorem execCall_full {s : State} (h : s.sp.val = 16) (nnn : Addr12) :
    execCall nnn s = .fault (.stackOverflow s.pc) := by
  rw [execCall, dif_neg (by omega)]; rfl

theorem execDrw_eq (x y : RegIx) (n : RowCount) (s : State) :
    execDrw x y n s = if n.val = 0 ∨ s.base + n.val ≤ 0x1000
      then .next (s.drawSprite (s.reg x).toNat (s.reg y).toNat
        ((List.range n.val).map fun k => s.byte (s.base + k))).advance
      else .fault (.outOfRange (max s.base 0x1000)) := by
  rw [execDrw, loadRun_eq]
  by_cases h : n.val = 0 ∨ s.base + n.val ≤ 0x1000
  · rw [if_pos h, if_pos h]; rfl
  · rw [if_neg h, if_neg h]; rfl

theorem execLdBVx_eq (x : RegIx) (s : State) :
    execLdBVx x s = if s.base + 2 ≤ 0xFFF
      then .next (s.setBytes s.base (bcdDigits (s.reg x))).advance
      else .fault (.outOfRange (max s.base 0x1000)) := by
  have hl : (bcdDigits (s.reg x)).length = 3 := rfl
  rw [execLdBVx, storeRun_eq, hl]
  by_cases h : s.base + 2 ≤ 0xFFF
  · rw [if_pos h, if_pos (by omega)]; rfl
  · rw [if_neg h, if_neg (by omega)]; rfl

theorem execLdMemVx_eq (x : RegIx) (s : State) :
    execLdMemVx x s = if s.base + x.val ≤ 0xFFF
      then .next (s.setBytes s.base (s.regsTo x)).advance
      else .fault (.outOfRange (max s.base 0x1000)) := by
  rw [execLdMemVx, storeRun_eq, State.regsTo_length]
  by_cases h : s.base + x.val ≤ 0xFFF
  · rw [if_pos h, if_pos (by omega)]; rfl
  · rw [if_neg h, if_neg (by omega)]; rfl

theorem execLdVxMem_eq (x : RegIx) (s : State) :
    execLdVxMem x s = if s.base + x.val ≤ 0xFFF
      then .next (s.setRegsTo x ((List.range (x.val + 1)).map fun k => s.byte (s.base + k))).advance
      else .fault (.outOfRange (max s.base 0x1000)) := by
  rw [execLdVxMem, loadRun_eq]
  by_cases h : s.base + x.val ≤ 0xFFF
  · rw [if_pos h, if_pos (by omega)]; rfl
  · rw [if_neg h, if_neg (by omega)]; rfl

/-- FX0A completes with the lowest pressed key, or starts the wait. -/
theorem execLdVxK_cases (x : RegIx) (s : State) :
    (∃ k, s.anyDown = some k ∧ execLdVxK x s = .next (s.setReg x (keyByte k)).advance) ∨
    (s.anyDown = none ∧ execLdVxK x s = .next { s with waitx := x, run := .waitingForKey }) := by
  rw [execLdVxK]
  cases h : s.anyDown with
  | none => exact .inr ⟨rfl, rfl⟩
  | some k => exact .inl ⟨k, rfl, rfl⟩

/-- The sprite of a draw plots a cell iff one of its pixels lands there. -/
theorem mem_spriteCells (s : State) (base n px py cx cy : Nat) :
    (cx, cy) ∈ (spritePixels px py ((List.range n).map fun k => s.byte (base + k))).map cellOf ↔
      SpritePlots s base n px py cx cy := by
  simp only [List.mem_map, mem_spritePixels, List.length_map, List.length_range, SpritePlots]
  constructor
  · rintro ⟨p, ⟨r, hr, c, hc, hb, rfl⟩, e⟩
    simp only [cellOf, Prod.mk.injEq] at e
    exact ⟨r, hr, c, hc, by simpa using hb, e.1.symm, e.2.symm⟩
  · rintro ⟨r, hr, c, hc, hb, rfl, rfl⟩
    exact ⟨(px + c, py + r), ⟨r, hr, c, hc, by simpa using hb, rfl⟩, rfl⟩

/-- No two pixels of a draw's sprite land on one cell. -/
theorem spriteCells_nodup (s : State) (base px py : Nat) (n : RowCount) :
    ((spritePixels px py ((List.range n.val).map fun k => s.byte (base + k))).map cellOf).Nodup :=
  spritePixels_nodup _ _ _ (by simp only [List.length_map, List.length_range]; omega)

end Sys2Proof.Machine
end

