-- ==== Sys2Proof/Laws/PerInstr.lean ====
section
/-! SUPPORT. The per-instruction family OwnRow: an instruction's word lies in its own row of spec/opcode_table.json,
whatever its operands (spec/30_encoding.md R60). -/

namespace Sys2Proof.Laws.OwnRow

/-- Some row of the table has the instruction's mnemonic and its word. -/
def Statement (i : Instr) : Prop :=
  ∃ r ∈ opcodeTable, r.mnemonic = i.mnemonic ∧ r.matchesWord (encode i) = true

theorem ofRow {i : Instr} (r : OpcodeRow) (h : r ∈ opcodeTable) (hm : r.mnemonic = i.mnemonic)
    (hw : encode i &&& r.mask = r.pattern) : Statement i :=
  ⟨r, h, hm, by simpa [OpcodeRow.matchesWord] using hw⟩

/-- A word of format NNN under the mask of its group. -/
theorem maskNNN (op : BitVec 4) (nnn : Addr12) : formatNNN op nnn &&& 0xF000#16 = op ++ 0#12 := by
  rw [formatNNN, show 0xF000#16 = 0xF#4 ++ 0x000#12 from rfl, BitVec.and_append]
  rw [show op &&& 0xF#4 = op from BitVec.and_allOnes, show nnn &&& 0x000#12 = 0#12 from BitVec.and_zero]

/-- A word of format XKK under the mask of its group. -/
theorem maskXKK (op : BitVec 4) (x : RegIx) (kk : Byte) : formatXKK op x kk &&& 0xF000#16 = op ++ 0#4 ++ 0#8 := by
  rw [formatXKK, show 0xF000#16 = 0xF#4 ++ 0x0#4 ++ 0x00#8 from rfl, BitVec.and_append, BitVec.and_append]
  rw [show op &&& 0xF#4 = op from BitVec.and_allOnes, show kk &&& 0x00#8 = 0#8 from BitVec.and_zero]
  rw [show (BitVec.ofFin x : BitVec 4) &&& 0x0#4 = 0#4 from BitVec.and_zero]

/-- A word of format X, its low byte fixed. -/
theorem maskX (op : BitVec 4) (x : RegIx) (kk : Byte) : formatXKK op x kk &&& 0xF0FF#16 = op ++ 0#4 ++ kk := by
  rw [formatXKK, show 0xF0FF#16 = 0xF#4 ++ 0x0#4 ++ 0xFF#8 from rfl, BitVec.and_append, BitVec.and_append]
  rw [show op &&& 0xF#4 = op from BitVec.and_allOnes, show kk &&& 0xFF#8 = kk from BitVec.and_allOnes]
  rw [show (BitVec.ofFin x : BitVec 4) &&& 0x0#4 = 0#4 from BitVec.and_zero]

/-- A word of format XY, its low nibble fixed. -/
theorem maskXY (op : BitVec 4) (x y : RegIx) (n : BitVec 4) :
    formatXYN op x y n &&& 0xF00F#16 = op ++ 0#4 ++ 0#4 ++ n := by
  rw [formatXYN, show 0xF00F#16 = 0xF#4 ++ 0x0#4 ++ 0x0#4 ++ 0xF#4 from rfl]
  rw [BitVec.and_append, BitVec.and_append, BitVec.and_append]
  rw [show op &&& 0xF#4 = op from BitVec.and_allOnes, show n &&& 0xF#4 = n from BitVec.and_allOnes]
  rw [show (BitVec.ofFin x : BitVec 4) &&& 0x0#4 = 0#4 from BitVec.and_zero]
  rw [show (BitVec.ofFin y : BitVec 4) &&& 0x0#4 = 0#4 from BitVec.and_zero]

/-- A word of format XYN under the mask of its group. -/
theorem maskXYN (op : BitVec 4) (x y : RegIx) (n : BitVec 4) :
    formatXYN op x y n &&& 0xF000#16 = op ++ 0#4 ++ 0#4 ++ 0#4 := by
  rw [formatXYN, show 0xF000#16 = 0xF#4 ++ 0x0#4 ++ 0x0#4 ++ 0x0#4 from rfl]
  rw [BitVec.and_append, BitVec.and_append, BitVec.and_append]
  rw [show op &&& 0xF#4 = op from BitVec.and_allOnes, show n &&& 0x0#4 = 0#4 from BitVec.and_zero]
  rw [show (BitVec.ofFin x : BitVec 4) &&& 0x0#4 = 0#4 from BitVec.and_zero]
  rw [show (BitVec.ofFin y : BitVec 4) &&& 0x0#4 = 0#4 from BitVec.and_zero]

/-! ### One lemma per constructor -/

theorem ldI (nnn : Addr12) : Statement (.ldI nnn) :=
  ofRow ⟨"LD_I", 0xA000, 0xF000⟩ (by decide) rfl (maskNNN 0xA#4 nnn)

theorem cls : Statement .cls :=
  ofRow ⟨"CLS", 0x00E0, 0xFFFF⟩ (by decide) rfl rfl

theorem ret : Statement .ret :=
  ofRow ⟨"RET", 0x00EE, 0xFFFF⟩ (by decide) rfl rfl

theorem jp (nnn : Addr12) : Statement (.jp nnn) :=
  ofRow ⟨"JP", 0x1000, 0xF000⟩ (by decide) rfl (maskNNN 0x1#4 nnn)

theorem call (nnn : Addr12) : Statement (.call nnn) :=
  ofRow ⟨"CALL", 0x2000, 0xF000⟩ (by decide) rfl (maskNNN 0x2#4 nnn)

theorem seImm (x : RegIx) (kk : Byte) : Statement (.seImm x kk) :=
  ofRow ⟨"SE_IMM", 0x3000, 0xF000⟩ (by decide) rfl (maskXKK 0x3#4 x kk)

theorem sneImm (x : RegIx) (kk : Byte) : Statement (.sneImm x kk) :=
  ofRow ⟨"SNE_IMM", 0x4000, 0xF000⟩ (by decide) rfl (maskXKK 0x4#4 x kk)

theorem seReg (x y : RegIx) : Statement (.seReg x y) :=
  ofRow ⟨"SE_REG", 0x5000, 0xF00F⟩ (by decide) rfl (maskXY 0x5#4 x y 0x0#4)

theorem sneReg (x y : RegIx) : Statement (.sneReg x y) :=
  ofRow ⟨"SNE_REG", 0x9000, 0xF00F⟩ (by decide) rfl (maskXY 0x9#4 x y 0x0#4)

theorem ldImm (x : RegIx) (kk : Byte) : Statement (.ldImm x kk) :=
  ofRow ⟨"LD_IMM", 0x6000, 0xF000⟩ (by decide) rfl (maskXKK 0x6#4 x kk)

theorem addImm (x : RegIx) (kk : Byte) : Statement (.addImm x kk) :=
  ofRow ⟨"ADD_IMM", 0x7000, 0xF000⟩ (by decide) rfl (maskXKK 0x7#4 x kk)

theorem ldReg (x y : RegIx) : Statement (.ldReg x y) :=
  ofRow ⟨"LD_REG", 0x8000, 0xF00F⟩ (by decide) rfl (maskXY 0x8#4 x y 0x0#4)

theorem orReg (x y : RegIx) : Statement (.orReg x y) :=
  ofRow ⟨"OR", 0x8001, 0xF00F⟩ (by decide) rfl (maskXY 0x8#4 x y 0x1#4)

theorem andReg (x y : RegIx) : Statement (.andReg x y) :=
  ofRow ⟨"AND", 0x8002, 0xF00F⟩ (by decide) rfl (maskXY 0x8#4 x y 0x2#4)

theorem xorReg (x y : RegIx) : Statement (.xorReg x y) :=
  ofRow ⟨"XOR", 0x8003, 0xF00F⟩ (by decide) rfl (maskXY 0x8#4 x y 0x3#4)

theorem addReg (x y : RegIx) : Statement (.addReg x y) :=
  ofRow ⟨"ADD_REG", 0x8004, 0xF00F⟩ (by decide) rfl (maskXY 0x8#4 x y 0x4#4)

theorem sub (x y : RegIx) : Statement (.sub x y) :=
  ofRow ⟨"SUB", 0x8005, 0xF00F⟩ (by decide) rfl (maskXY 0x8#4 x y 0x5#4)

theorem shr (x y : RegIx) : Statement (.shr x y) :=
  ofRow ⟨"SHR", 0x8006, 0xF00F⟩ (by decide) rfl (maskXY 0x8#4 x y 0x6#4)

theorem subn (x y : RegIx) : Statement (.subn x y) :=
  ofRow ⟨"SUBN", 0x8007, 0xF00F⟩ (by decide) rfl (maskXY 0x8#4 x y 0x7#4)

theorem shl (x y : RegIx) : Statement (.shl x y) :=
  ofRow ⟨"SHL", 0x800E, 0xF00F⟩ (by decide) rfl (maskXY 0x8#4 x y 0xE#4)

theorem jpV0 (nnn : Addr12) : Statement (.jpV0 nnn) :=
  ofRow ⟨"JP_V0", 0xB000, 0xF000⟩ (by decide) rfl (maskNNN 0xB#4 nnn)

theorem rnd (x : RegIx) (kk : Byte) : Statement (.rnd x kk) :=
  ofRow ⟨"RND", 0xC000, 0xF000⟩ (by decide) rfl (maskXKK 0xC#4 x kk)

theorem drw (x y : RegIx) (n : RowCount) : Statement (.drw x y n) :=
  ofRow ⟨"DRW", 0xD000, 0xF000⟩ (by decide) rfl (maskXYN 0xD#4 x y (BitVec.ofFin n))

theorem skp (x : RegIx) : Statement (.skp x) :=
  ofRow ⟨"SKP", 0xE09E, 0xF0FF⟩ (by decide) rfl (maskX 0xE#4 x 0x9E#8)

theorem sknp (x : RegIx) : Statement (.sknp x) :=
  ofRow ⟨"SKNP", 0xE0A1, 0xF0FF⟩ (by decide) rfl (maskX 0xE#4 x 0xA1#8)

theorem ldVxDt (x : RegIx) : Statement (.ldVxDt x) :=
  ofRow ⟨"LD_VX_DT", 0xF007, 0xF0FF⟩ (by decide) rfl (maskX 0xF#4 x 0x07#8)

theorem ldVxK (x : RegIx) : Statement (.ldVxK x) :=
  ofRow ⟨"LD_VX_K", 0xF00A, 0xF0FF⟩ (by decide) rfl (maskX 0xF#4 x 0x0A#8)

theorem ldDtVx (x : RegIx) : Statement (.ldDtVx x) :=
  ofRow ⟨"LD_DT_VX", 0xF015, 0xF0FF⟩ (by decide) rfl (maskX 0xF#4 x 0x15#8)

theorem ldStVx (x : RegIx) : Statement (.ldStVx x) :=
  ofRow ⟨"LD_ST_VX", 0xF018, 0xF0FF⟩ (by decide) rfl (maskX 0xF#4 x 0x18#8)

theorem addIVx (x : RegIx) : Statement (.addIVx x) :=
  ofRow ⟨"ADD_I_VX", 0xF01E, 0xF0FF⟩ (by decide) rfl (maskX 0xF#4 x 0x1E#8)

theorem ldFVx (x : RegIx) : Statement (.ldFVx x) :=
  ofRow ⟨"LD_F_VX", 0xF029, 0xF0FF⟩ (by decide) rfl (maskX 0xF#4 x 0x29#8)

theorem ldBVx (x : RegIx) : Statement (.ldBVx x) :=
  ofRow ⟨"LD_B_VX", 0xF033, 0xF0FF⟩ (by decide) rfl (maskX 0xF#4 x 0x33#8)

theorem ldMemVx (x : RegIx) : Statement (.ldMemVx x) :=
  ofRow ⟨"LD_MEM_VX", 0xF055, 0xF0FF⟩ (by decide) rfl (maskX 0xF#4 x 0x55#8)

theorem ldVxMem (x : RegIx) : Statement (.ldVxMem x) :=
  ofRow ⟨"LD_VX_MEM", 0xF065, 0xF0FF⟩ (by decide) rfl (maskX 0xF#4 x 0x65#8)

end Sys2Proof.Laws.OwnRow
end

