-- ==== Sys2Proof/Tests/Slice0.lean ====
section
/-! SUPPORT. The author's tests. Expected results come from spec/95_test_vectors.md (a vector's id is in its test's
comment) and from the encodings of spec/30_encoding.md, written out by hand. The second half is the witnesses: for
each statement that has hypotheses, a state and operands that meet them. -/

namespace Sys2Proof.Tests

open Sys2Proof Sys2Proof.Machine

set_option Elab.async false

/-! ### Helpers -/

/-- Set some registers. -/
def withRegs (s : State) (rs : List (RegIx × Byte)) : State := rs.foldl (fun t p => t.setReg p.1 p.2) s

/-- Place some bytes. -/
def poke (s : State) (a : Nat) (bs : List Byte) : State := s.setBytes a bs

/-- The vectors' start state with the word under test at 0x200 and some registers set. -/
def start (w : Word) (rs : List (RegIx × Byte)) : State := withRegs (State.reset.placeWord 0x200 w) rs

/-- What the state holds after a result that goes on. -/
def after {α : Type} (r : Result) (f : State → α) : Option α :=
  match r with
  | .next t    => some (f t)
  | .fault _   => none
  | .refused _ => none

/-- The fault a result ends in. -/
def faultOf {α : Type} (r : Host.Outcome α Fault Refusal) : Option Fault :=
  match r with
  | .fault f   => some f
  | .next _    => none
  | .refused _ => none

/-- The refusal a command ends in. -/
def refusalOf {α : Type} (r : Host.Outcome α Fault Refusal) : Option Refusal :=
  match r with
  | .refused e => some e
  | .next _    => none
  | .fault _   => none

/-- What the state holds after a command that goes on, with its reply. -/
def afterCommand {α : Type} (a : Answer) (f : State → α) : Option (α × Reply) :=
  match a with
  | .next (t, r) => some (f t, r)
  | .fault _     => none
  | .refused _   => none

/-- Set some cells of a clear framebuffer. -/
def cellsSet (cs : List (Nat × Nat)) : Framebuffer := (plot clearedFb cs).1

/-! ### Well-formedness: a term each check refuses -/

/-- One word of each range of R61. -/
theorem test_illformed_words :
    ([0x0000, 0x00DF, 0x00E1, 0x00EF, 0x0FFF, 0x5AB1, 0x8AB8, 0x8ABD, 0x8ABF, 0x9AB3, 0xEA9F, 0xF000, 0xFA0B, 0xFFFF]
      : List Word).all (fun w => !wellFormedWord w) = true := by decide +kernel

theorem test_wellformed_words :
    ([0x00E0, 0x00EE, 0x1ABC, 0x5AB0, 0x8ABE, 0x9AB0, 0xEA9E, 0xFA65] : List Word).all wellFormedWord = true := by
  decide +kernel

/-- H-2 and H-3: 0xE00 bytes are the most. -/
theorem test_illformed_image : wellFormedImage (List.replicate 0xE01 0xAA) = false := by decide +kernel
theorem test_wellformed_image : wellFormedImage (List.replicate 0xE00 0xAA) = true := by decide +kernel

theorem test_illformed_keys : wellFormedKey (-1) = false ∧ wellFormedKey 16 = false := by decide
theorem test_wellformed_keys : wellFormedKey 0 = true ∧ wellFormedKey 15 = true := by decide

/-- The encoder's words lie in their rows of the opcode table. -/
theorem test_encoded_words_wellformed :
    ([.ldI 0xABC, .cls, .ret, .seReg 0xA 0xB, .shl 0xA 0xB, .drw 0xA 0xB 5, .skp 0xA, .ldVxMem 0xA] : List Instr).all
      (fun i => wellFormedWord (encode i)) = true := by decide +kernel

/-! ### Decoding: words written out from the encodings of R57 and R60, every constructor -/

/-- Every word of the list decodes to its instruction. -/
def decodesTo (l : List (Word × Instr)) : Bool := l.all fun p => decide (decode p.1 = .ok p.2)

theorem test_decode_nnn :
    decodesTo
    [(0b1010_1010_1011_1100#16, .ldI 0xABC), (0b0001_1010_1011_1100#16, .jp 0xABC),
     (0b0010_1010_1011_1100#16, .call 0xABC), (0b1011_1010_1011_1100#16, .jpV0 0xABC)] = true := by decide +kernel

theorem test_decode_full :
    decodesTo
    [(0b0000_0000_1110_0000#16, .cls), (0b0000_0000_1110_1110#16, .ret)] = true := by decide +kernel

theorem test_decode_xkk :
    decodesTo
    [(0b0011_1010_0100_0010#16, .seImm 0xA 0x42), (0b0100_1010_0100_0010#16, .sneImm 0xA 0x42),
     (0b0110_1010_0100_0010#16, .ldImm 0xA 0x42), (0b0111_1010_0100_0010#16, .addImm 0xA 0x42),
     (0b1100_1010_0100_0010#16, .rnd 0xA 0x42)] = true := by decide +kernel

theorem test_decode_xy :
    decodesTo
    [(0b0101_1010_1011_0000#16, .seReg 0xA 0xB), (0b1001_1010_1011_0000#16, .sneReg 0xA 0xB),
     (0b1000_1010_1011_0000#16, .ldReg 0xA 0xB), (0b1000_1010_1011_0001#16, .orReg 0xA 0xB),
     (0b1000_1010_1011_0010#16, .andReg 0xA 0xB), (0b1000_1010_1011_0011#16, .xorReg 0xA 0xB),
     (0b1000_1010_1011_0100#16, .addReg 0xA 0xB), (0b1000_1010_1011_0101#16, .sub 0xA 0xB),
     (0b1000_1010_1011_0110#16, .shr 0xA 0xB), (0b1000_1010_1011_0111#16, .subn 0xA 0xB),
     (0b1000_1010_1011_1110#16, .shl 0xA 0xB)] = true := by decide +kernel

theorem test_decode_xyn :
    decodesTo
    [(0b1101_1010_1011_0101#16, .drw 0xA 0xB 5)] = true := by decide +kernel

theorem test_decode_x :
    decodesTo
    [(0b1110_1010_1001_1110#16, .skp 0xA), (0b1110_1010_1010_0001#16, .sknp 0xA),
     (0b1111_1010_0000_0111#16, .ldVxDt 0xA), (0b1111_1010_0000_1010#16, .ldVxK 0xA),
     (0b1111_1010_0001_0101#16, .ldDtVx 0xA), (0b1111_1010_0001_1000#16, .ldStVx 0xA),
     (0b1111_1010_0001_1110#16, .addIVx 0xA), (0b1111_1010_0010_1001#16, .ldFVx 0xA),
     (0b1111_1010_0011_0011#16, .ldBVx 0xA), (0b1111_1010_0101_0101#16, .ldMemVx 0xA),
     (0b1111_1010_0110_0101#16, .ldVxMem 0xA)] = true := by decide +kernel

/-- The words the vectors of section 2.1 call UNKNOWN. -/
theorem test_decode_unknown :
    ([0x0123, 0x00E1, 0x5AB1, 0x8AB8, 0x8ABD, 0x8ABF, 0x9AB3, 0xEA9F, 0xF000, 0xFA0B, 0xFAFF, 0xFFFF] : List Word).all
      (fun w => decide (decode w = .error (.unknown w))) = true := by decide +kernel

/-- Bytes: high byte first (R46), the rest given back, fewer than two bytes refused. -/
theorem test_decode_bytes :
    decodeBytes [0x12, 0x34, 0x56] = .ok (.jp 0x234, [0x56]) ∧ decodeBytes [0x12] = .error .truncated ∧
    decodeBytes [] = .error .truncated := by decide +kernel

theorem test_encode :
    encode (.ldI 0xABC) = 0xAABC ∧ encode (.sneReg 0xA 0xB) = 0x9AB0 ∧ encode (.shl 0xA 0xB) = 0x8ABE ∧
    encode (.drw 0xA 0xB 5) = 0xDAB5 ∧ encode (.ldMemVx 0xA) = 0xFA55 ∧ encodeBytes (.jp 0x234) = [0x12, 0x34] := by
  decide +kernel

/-- The host's question: row SHR of the table, 16 bits. -/
theorem test_decode_table_word :
    decodeTableWord 16 0x8AB6 = some (.shr 0xA 0xB) ∧ decodeTableWord 16 0xFFFF = none := by decide +kernel

/-- The very next step runs the placed word. -/
theorem test_with_fetch_word :
    after (step (State.reset.withFetchWord 16 0x6A42)) (fun t => (t.reg 0xA, t.pc)) = some (0x42, 0x202) := by
  decide +kernel

/-! ### The cycle -/

/-- C-2: the last fetchable word. -/
theorem test_C2_last_word :
    after (step (poke { State.reset with pc := 0xFFE } 0xFFE [0x60, 0x01])) (fun t => (t.reg 0, t.pc)) =
      some (0x01, 0x1000) := by decide +kernel

/-- C-3 and C-4: a fetch off the end. -/
theorem test_C3_C4_fetch_off_the_end :
    faultOf (step (poke { State.reset with pc := 0xFFF } 0xFFF [0x60])) = some (.outOfRange 0x1000) ∧
    faultOf (step { State.reset with pc := 0x1000 }) = some (.outOfRange 0x1000) := by decide +kernel

/-- C-5: an odd PC. -/
theorem test_C5_odd_pc :
    after (step (poke { State.reset with pc := 0x201 } 0x201 [0x6A, 0x07])) (fun t => (t.reg 0xA, t.pc)) =
      some (0x07, 0x203) := by decide +kernel

/-- C-6, C-7 and C-9: unknown words. -/
theorem test_C6_C7_C9_unknown :
    faultOf (step State.reset) = some (.unknownOpcode 0x0000) ∧ faultOf (step (start 0x0123 [])) = some (.unknownOpcode 0x0123) ∧
    faultOf (step (start 0xFFFF [])) = some (.unknownOpcode 0xFFFF) := by decide +kernel

/-! ### Instructions, at most two small tests each -/

/-- I-6 and I-7. -/
theorem test_I6_I7_ldI :
    after (step (start 0xA123 [])) (fun t => (t.i, t.pc)) = some (0x123, 0x202) ∧
    after (step (start 0xAFFF [])) (fun t => t.i) = some 0xFFF := by decide +kernel

/-- I-2. -/
theorem test_I2_ldImm : after (step (start 0x6F01 [])) (fun t => (t.reg VF, t.pc)) = some (0x01, 0x202) := by
  decide +kernel

/-- I-3 and I-4: the wrap records no carry. -/
theorem test_I3_I4_addImm :
    after (step (start 0x7A05 [(0xA, 0x10), (VF, 0xAA)])) (fun t => (t.reg 0xA, t.reg VF)) = some (0x15, 0xAA) ∧
    after (step (start 0x7AFF [(0xA, 0x02)])) (fun t => (t.reg 0xA, t.reg VF)) = some (0x01, 0x00) := by decide +kernel

/-- I-8 and I-10, with the cycle's byte given. -/
theorem test_I8_I10_rnd :
    after (cycle 0xAB (start 0xC30F [])) (fun t => (t.reg 3, t.pc)) = some (0x0B, 0x202) ∧
    after (cycle 0x5A (start 0xCFFF [(VF, 0x01)])) (fun t => t.reg VF) = some 0x5A := by decide +kernel

/-- I-9: kk = 0 gives 0 whatever the free byte is. -/
theorem test_I9_rnd_mask_zero (r : Byte) : after (rndWith r 3 0x00 State.reset) (fun t => t.reg 3) = some 0x00 := by
  have h : r &&& 0 = (0 : Byte) := BitVec.and_zero
  show some (((State.reset.setReg 3 (r &&& 0)).advance).reg 3) = _
  rw [h]; decide +kernel

/-- F-1 and F-2. -/
theorem test_F1_F2_jp :
    after (step (start 0x1ABC [])) (fun t => t.pc) = some 0xABC ∧ after (step (start 0x1200 [])) (fun t => t) = some (start 0x1200 []) := by
  decide +kernel

/-- F-3 and F-4. -/
theorem test_F3_F4_call :
    after (step (start 0x2400 [])) (fun t => (t.stack[0], t.sp, t.pc)) = some (0x200, 1, 0x400) ∧
    after (step { start 0x2400 [] with sp := 15 }) (fun t => (t.stack[15], t.sp, t.pc)) = some (0x200, 16, 0x400) := by
  decide +kernel

/-- F-5. -/
theorem test_F5_call_overflow : faultOf (step { start 0x2400 [] with sp := 16 }) = some (.stackOverflow 0x200) := by
  decide +kernel

/-- F-6 and F-8. -/
theorem test_F6_F8_ret :
    after (step { start 0x00EE [] with sp := 1, stack := (Vector.replicate 16 0).set 0 0x350 }) (fun t => (t.sp, t.pc)) =
      some (0, 0x352) ∧
    after (step { start 0x00EE [] with sp := 16, stack := (Vector.replicate 16 0).set 15 0xFFE })
      (fun t => (t.sp, t.pc)) = some (15, 0x1000) := by decide +kernel

/-- F-7. -/
theorem test_F7_ret_underflow : faultOf (step (start 0x00EE [])) = some (.stackUnderflow 0x200) := by decide +kernel

/-- F-9 and F-10. -/
theorem test_F9_F10_seImm :
    after (step (start 0x3A42 [(0xA, 0x42)])) (fun t => t.pc) = some 0x204 ∧
    after (step (start 0x3A42 [(0xA, 0x41)])) (fun t => t.pc) = some 0x202 := by decide +kernel

/-- F-11 and F-12. -/
theorem test_F11_F12_sneImm :
    after (step (start 0x4A42 [(0xA, 0x42)])) (fun t => t.pc) = some 0x202 ∧
    after (step (start 0x4A42 [(0xA, 0x41)])) (fun t => t.pc) = some 0x204 := by decide +kernel

/-- F-13 and F-14. -/
theorem test_F13_F14_seReg :
    after (step (start 0x5AB0 [(0xA, 7), (0xB, 7)])) (fun t => t.pc) = some 0x204 ∧
    after (step (start 0x5AB0 [(0xA, 7), (0xB, 8)])) (fun t => t.pc) = some 0x202 := by decide +kernel

/-- F-17 and F-18. -/
theorem test_F17_F18_sneReg :
    after (step (start 0x9AB0 [(0xA, 7), (0xB, 8)])) (fun t => t.pc) = some 0x204 ∧
    after (step (start 0x9AB0 [(0xA, 7), (0xB, 7)])) (fun t => t.pc) = some 0x202 := by decide +kernel

/-- F-20 and F-21: unmasked. -/
theorem test_F20_F21_jpV0 :
    after (step (start 0xB300 [(0, 0x10)])) (fun t => t.pc) = some 0x310 ∧
    after (step (start 0xBFFF [(0, 0xFF)])) (fun t => t.pc) = some 0x10FE := by decide +kernel

/-- A-1 to A-4: VF is left alone. -/
theorem test_A1_to_A4_logic :
    after (step (start 0x8AB0 [(0xA, 0x01), (0xB, 0x77), (VF, 5)])) (fun t => (t.reg 0xA, t.reg VF)) = some (0x77, 5) ∧
    after (step (start 0x8AB1 [(0xA, 0xF0), (0xB, 0x0F), (VF, 5)])) (fun t => (t.reg 0xA, t.reg VF)) = some (0xFF, 5) ∧
    after (step (start 0x8AB2 [(0xA, 0xF3), (0xB, 0x3F), (VF, 5)])) (fun t => (t.reg 0xA, t.reg VF)) = some (0x33, 5) ∧
    after (step (start 0x8AB3 [(0xA, 0xFF), (0xB, 0x0F), (VF, 5)])) (fun t => (t.reg 0xA, t.reg VF)) = some (0xF0, 5) := by
  decide +kernel

/-- A-7 and A-8: 256 and 255. -/
theorem test_A7_A8_addReg :
    after (step (start 0x8AB4 [(0xA, 0xFF), (0xB, 0x01)])) (fun t => (t.reg 0xA, t.reg VF)) = some (0x00, 1) ∧
    after (step (start 0x8AB4 [(0xA, 0x80), (0xB, 0x7F), (VF, 1)])) (fun t => (t.reg 0xA, t.reg VF)) =
      some (0xFF, 0) := by decide +kernel

/-- A-10 and A-11: x = F and y = F. -/
theorem test_A10_A11_addReg_VF :
    after (step (start 0x8FB4 [(VF, 0xFF), (0xB, 0x02)])) (fun t => t.reg VF) = some 1 ∧
    after (step (start 0x8AF4 [(0xA, 0x01), (VF, 0xFF)])) (fun t => (t.reg 0xA, t.reg VF)) = some (0x00, 1) := by
  decide +kernel

/-- A-12 and A-14: a borrow, and equal operands. -/
theorem test_A12_A14_sub :
    after (step (start 0x8AB5 [(0xA, 0x05), (0xB, 0x0A), (VF, 1)])) (fun t => (t.reg 0xA, t.reg VF)) = some (0xFB, 0) ∧
    after (step (start 0x8AB5 [(0xA, 0x07), (0xB, 0x07), (VF, 1)])) (fun t => (t.reg 0xA, t.reg VF)) = some (0x00, 0) := by
  decide +kernel

/-- A-17 and A-20: the source is Vy; x = F. -/
theorem test_A17_A20_shr :
    after (step (start 0x8AB6 [(0xA, 0xFF), (0xB, 0x05)])) (fun t => (t.reg 0xA, t.reg VF)) = some (0x02, 1) ∧
    after (step (start 0x8FB6 [(0xB, 0x02), (VF, 0x07)])) (fun t => t.reg VF) = some 0 := by decide +kernel

/-- A-21 and A-22. -/
theorem test_A21_A22_subn :
    after (step (start 0x8AB7 [(0xA, 0x0A), (0xB, 0x05), (VF, 1)])) (fun t => (t.reg 0xA, t.reg VF)) = some (0xFB, 0) ∧
    after (step (start 0x8AB7 [(0xA, 0x05), (0xB, 0x0A)])) (fun t => (t.reg 0xA, t.reg VF)) = some (0x05, 1) := by
  decide +kernel

/-- A-24 and A-25. -/
theorem test_A24_A25_shl :
    after (step (start 0x8ABE [(0xB, 0x81)])) (fun t => (t.reg 0xA, t.reg VF)) = some (0x02, 1) ∧
    after (step (start 0x8ABE [(0xB, 0x40), (VF, 1)])) (fun t => (t.reg 0xA, t.reg VF)) = some (0x80, 0) := by
  decide +kernel

/-- G-1 and G-2. -/
theorem test_G1_G2_cls :
    after (step { start 0x00E0 [] with fb := cellsSet [(0, 0), (63, 31)] }) (fun t => (t.fb, t.draw, t.pc)) =
      some (clearedFb, true, 0x202) ∧
    after (step (start 0x00E0 [])) (fun t => t.draw) = some true := by decide +kernel

/-- G-3: glyph "0". -/
theorem test_G3_drw_glyph :
    after (step (start 0xD015 [])) (fun t => (t.fb, t.reg VF, t.draw)) =
      some (cellsSet [(0, 0), (1, 0), (2, 0), (3, 0), (0, 1), (3, 1), (0, 2), (3, 2), (0, 3), (3, 3), (0, 4), (1, 4),
        (2, 4), (3, 4)], 0, true) := by decide +kernel

/-- G-7, G-5 and G-10: the wrap of a row, a collision, the check before any row. -/
theorem test_G5_G7_G10_drw :
    after (step (poke { start 0xDAB2 [(0xB, 0x1F)] with i := 0x300 } 0x300 [0x80, 0x80])) (fun t => t.fb) =
      some (cellsSet [(0, 31), (0, 0)]) ∧
    after (step (poke { start 0xDAB1 [] with i := 0x300, fb := cellsSet [(0, 0)] } 0x300 [0x80]))
      (fun t => (t.fb, t.reg VF)) = some (clearedFb, 1) ∧
    faultOf (step (poke { start 0xDAB2 [] with i := 0xFFF } 0xFFF [0xFF])) = some (.outOfRange 0x1000) := by decide +kernel

/-- K-1 and K-3. -/
theorem test_K1_K3_skp :
    after (step { start 0xEA9E [(0xA, 5)] with key := (Vector.replicate 16 false).set 5 true }) (fun t => t.pc) =
      some 0x204 ∧
    after (step { start 0xEA9E [(0xA, 0x20)] with key := (Vector.replicate 16 false).set 0 true }) (fun t => t.pc) =
      some 0x202 := by decide +kernel

/-- K-4 and K-6. -/
theorem test_K4_K6_sknp :
    after (step { start 0xEAA1 [(0xA, 5)] with key := (Vector.replicate 16 false).set 5 true }) (fun t => t.pc) =
      some 0x202 ∧
    after (step (start 0xEAA1 [(0xA, 0x20)])) (fun t => t.pc) = some 0x204 := by decide +kernel

/-- The waiting state K-9 ends in. -/
def waitingA : State := { start 0xFA0A [] with run := .waitingForKey, waitx := 0xA }

/-- K-8 and K-9. -/
theorem test_K8_K9_ldVxK :
    after (step { start 0xFA0A [] with key := ((Vector.replicate 16 false).set 3 true).set 9 true })
      (fun t => (t.reg 0xA, t.pc)) = some (0x03, 0x202) ∧
    after (step (start 0xFA0A [])) (fun t => t) = some waitingA := by decide +kernel

/-- K-10 and K-11: a poll, and the poll that finds a key. -/
theorem test_K10_K11_wait :
    after (step waitingA) (fun t => t) = some waitingA ∧
    after (step { waitingA with key := (Vector.replicate 16 false).set 7 true }) (fun t => (t.reg 0xA, t.pc, t.run)) =
      some (0x07, 0x202, .running) := by decide +kernel

/-- T-07 and T-15. -/
theorem test_T07_T15_delay_timer :
    after (step { start 0xFA07 [] with dt := 0x3C }) (fun t => (t.reg 0xA, t.pc)) = some (0x3C, 0x202) ∧
    after (step (start 0xFA15 [(0xA, 0x3C)])) (fun t => (t.dt, t.pc)) = some (0x3C, 0x202) := by decide +kernel

/-- T-18a and T-18b. -/
theorem test_T18_sound_timer :
    after (step (start 0xFA18 [(0xA, 0x01)])) (fun t => (t.st, t.pc)) = some (0x01, 0x202) ∧
    after (step { start 0xFA18 [] with st := 1 }) (fun t => t.st) = some 0x00 := by decide +kernel

/-- T-1Eb and T-1Ec. -/
theorem test_T1E_addIVx :
    after (step { start 0xFA1E [(0xA, 0x02)] with i := 0xFFFF }) (fun t => (t.i, t.reg VF)) = some (0x0001, 0) ∧
    after (step { start 0xFA1E [(0xA, 0x01)] with i := 0x0FFF }) (fun t => t.i) = some 0x1000 := by decide +kernel

/-- T-29a and T-29c. -/
theorem test_T29_ldFVx :
    after (step (start 0xFA29 [(0xA, 0x0A)])) (fun t => t.i) = some 0x032 ∧
    after (step (start 0xFA29 [(0xA, 0xFF)])) (fun t => t.i) = some 0x4FB := by decide +kernel

/-- T-33c and T-33d. -/
theorem test_T33_ldBVx :
    after (step { start 0xFA33 [(0xA, 0x64)] with i := 0xFFD }) (fun t => (t.byte 0xFFD, t.byte 0xFFE, t.byte 0xFFF)) =
      some (0x01, 0x00, 0x00) ∧
    faultOf (step { start 0xFA33 [(0xA, 0x07)] with i := 0xFFE }) = some (.outOfRange 0x1000) := by decide +kernel

/-- T-55a and T-55c. -/
theorem test_T55_ldMemVx :
    after (step { start 0xF355 [(0, 1), (1, 2), (2, 3), (3, 4)] with i := 0x300 })
      (fun t => ([0x300, 0x301, 0x302, 0x303, 0x304].map t.byte, t.i)) = some ([1, 2, 3, 4, 0], 0x300) ∧
    faultOf (step { start 0xF155 [(0, 1), (1, 2)] with i := 0xFFF }) = some (.outOfRange 0x1000) := by decide +kernel

/-- T-65a and T-65b. -/
theorem test_T65_ldVxMem :
    after (step (poke { start 0xF265 [(3, 0x77)] with i := 0x300 } 0x300 [0x0A, 0x0B, 0x0C]))
      (fun t => ([0, 1, 2, 3].map t.reg, t.i)) = some ([0x0A, 0x0B, 0x0C, 0x77], 0x300) ∧
    faultOf (step { start 0xFF65 [] with i := 0xFF1 }) = some (.outOfRange 0x1000) := by decide +kernel

/-! ### Host commands -/

/-- M-3 and M-5. -/
theorem test_M3_M5_tick :
    afterCommand (command .tick { State.reset with dt := 1, st := 1 }) (fun t => (t.dt, t.st)) =
      some ((0, 0), .tone true) ∧
    afterCommand (command .tick { State.reset with dt := 0xFF, st := 0xFF }) (fun t => (t.dt, t.st)) =
      some ((0xFE, 0xFE), .tone false) := by decide +kernel

/-- K-14, K-15 and K-16. -/
theorem test_K14_K15_K16_keys :
    faultOf (command (.keyDown 16) State.reset) = some (.invalidKey 16) ∧
    faultOf (command (.keyUp 0xFF) State.reset) = some (.invalidKey 0xFF) ∧
    afterCommand (command (.keyDown 5) State.reset) (fun t => t.key) =
      some ((Vector.replicate 16 false).set 5 true, .ok) := by decide +kernel

/-- H-1 and H-3. -/
theorem test_H1_H3_load :
    afterCommand (command (.load [0x12, 0x00]) (start 0x6A42 [(1, 7)])) (fun t => t) =
      some (start 0x1200 [], .ok) ∧
    refusalOf (command (.load (List.replicate 0xE01 0)) State.reset) = some (.imageTooLong 0xE01) := by decide +kernel

/-- H-4 and the refusal before the first RESET. -/
theorem test_H4_reset :
    afterCommand (command .reset waitingA) (fun t => t) = some (State.reset, .ok) ∧
    refusalOf (blockCommand defaultFont .tick none) = some .beforeReset ∧
    afterCommand (blockCommand defaultFont .reset none) (fun t => t) = some (State.reset, .ok) := by decide +kernel

/-- The default table's first and last glyph and glyph 7, from R38; H-4 with another FONT, which RESET restores. -/
theorem test_font :
    ([0x00, 0x01, 0x04, 0x23, 0x24, 0x25, 0x26, 0x27, 0x4B, 0x4F, 0x50].map State.reset.byte) =
      [0xF0, 0x90, 0xF0, 0xF0, 0x10, 0x20, 0x40, 0x40, 0xF0, 0x80, 0x00] ∧
    afterCommand (command .reset (poke (State.resetWith (Vector.replicate 80 0xFF)) 0x4F [0x11, 0x22]))
      (fun t => (t.byte 0x00, t.byte 0x4F, t.byte 0x50)) = some ((0xFF, 0xFF, 0x00), .ok) := by decide +kernel

/-- The snapshot after G-7's drawing: indices 0 and 1984. -/
theorem test_snapshot_order :
    (fun l : List Bool => (l[0]?, l[1]?, l[64]?, l[1983]?, l[1984]?))
      (snapshotCells { State.reset with fb := cellsSet [(0, 31), (0, 0)] }) =
      (some true, some false, some false, some false, some true) := by decide +kernel

/-! ### Witnesses: the hypotheses of each statement, met together, each clause at a boundary value -/

theorem eq_fault {α : Type} {r : Host.Outcome α Fault Refusal} {f : Fault} (h : faultOf r = some f) : r = .fault f := by
  cases r <;> simp_all [faultOf]

theorem eq_next {r : Result} {t : State} (h : after r (fun t => t) = some t) : r = .next t := by
  cases r <;> simp_all [after]

theorem exists_next {r : Result} (h : after r (fun _ => ()) = some ()) : ∃ t : State, r = .next t := by
  cases r <;> simp_all [after]

/-- Key `k` alone is down. -/
def keyOnly (s : State) (k : Fin 16) : State := { s with key := (Vector.replicate 16 false).set k true }

/-- PC at the last fetchable word, 0x6001. -/
def lastWord : State := poke { State.reset with pc := 0xFFE } 0xFFE [0x60, 0x01]

theorem witness_EncodeUndoesDecode : decode 0x8AB5 = .ok (.sub 0xA 0xB) := by decide +kernel

theorem witness_StepRunsDecodedInstruction :
    lastWord.run = .running ∧ lastWord.pc.toNat + 1 ≤ 0xFFF ∧
    (0x6001 : Word).toNat = (lastWord.byte lastWord.pc.toNat).toNat * 256 +
      (lastWord.byte (lastWord.pc.toNat + 1)).toNat ∧
    decode 0x6001 = .ok (.ldImm 0 0x01) := by decide +kernel

/-- PC = 0x1000, 0xFFF and 0xFFE, one for each clause. -/
theorem witness_FetchFaultsExactlyAtTheEnd :
    0xFFF < ({ State.reset with pc := 0x1000 } : State).pc.toNat ∧
    ({ State.reset with pc := 0xFFF } : State).pc.toNat = 0xFFF ∧ lastWord.pc.toNat < 0xFFF := by decide +kernel

theorem witness_RunningCycleChecksInOrder :
    lastWord.run = .running ∧ fetchWord { State.reset with pc := 0xFFF } = .error (.outOfRange 0x1000) ∧
    fetchWord State.reset = .ok 0x0000 ∧ decode 0x0000 = .error (.unknown 0x0000) ∧
    fetchWord lastWord = .ok 0x6001 ∧ decode 0x6001 = .ok (.ldImm 0 0x01) := by decide +kernel

/-- No key, key 0, key 15. -/
theorem witness_WaitingCyclePollsKeys :
    waitingA.run = .waitingForKey ∧ (∀ k : RegIx, waitingA.key[k] = false) ∧
    (keyOnly waitingA 0).run = .waitingForKey ∧ (keyOnly waitingA 0).key[(0 : RegIx)] = true ∧
    (∀ j : RegIx, j < 0 → (keyOnly waitingA 0).key[j] = false) ∧
    (keyOnly waitingA 15).key[(15 : RegIx)] = true ∧
    (∀ j : RegIx, j < 15 → (keyOnly waitingA 15).key[j] = false) := by decide +kernel

theorem witness_WaitingEqualsRefetching :
    waitingA.run = .waitingForKey ∧ fetchInstr waitingA = .ok (.ldVxK waitingA.waitx) := by decide +kernel

theorem witness_OnlyRndReadsTheRandomByte (x : RegIx) (kk : Byte) : fetchInstr lastWord ≠ .ok (.rnd x kk) := by
  have h : fetchInstr lastWord = .ok (.ldImm 0 0x01) := by decide +kernel
  rw [h]; simp

/-- Each listed cause of a fault arises; the run at I is at its least invalid, FX55 with x = 15 and I = 0xFF1. -/
theorem witness_StepNeverRefusesAndFaultsForListedCauses :
    step { State.reset with pc := 0xFFF } = .fault (.outOfRange 0x1000) ∧
    step { start 0xFF55 [] with i := 0xFF1 } = .fault (.outOfRange 0x1000) ∧
    step State.reset = .fault (.unknownOpcode 0x0000) ∧
    step { start 0x2400 [] with sp := 16 } = .fault (.stackOverflow 0x200) ∧
    step (start 0x00EE []) = .fault (.stackUnderflow 0x200) :=
  ⟨eq_fault (by decide +kernel), eq_fault (by decide +kernel), eq_fault (by decide +kernel), eq_fault (by decide +kernel),
    eq_fault (by decide +kernel)⟩

/-- The least and the greatest admitted value. -/
theorem witness_RandomAdmitsEveryMaskedValue :
    (start 0xC30F []).run = .running ∧ fetchInstr (start 0xC30F []) = .ok (.rnd 3 0x0F) ∧
    (0x00 : Byte) &&& ~~~0x0F = 0 ∧ (0x0F : Byte) &&& ~~~0x0F = 0 := by decide +kernel

/-- SP = 0, 15 and 16. -/
theorem witness_CallPushesItsOwnAddress :
    State.reset.sp.val = (0 : Fin 16).val ∧ ({ State.reset with sp := 15 } : State).sp.val = (15 : Fin 16).val ∧
    ({ State.reset with sp := 16 } : State).sp.val = 16 := by decide +kernel

/-- SP = 1, 16 and 0. -/
theorem witness_ReturnGoesPastTheCall :
    ({ State.reset with sp := 1 } : State).sp.val = (0 : Fin 16).val + 1 ∧
    ({ State.reset with sp := 16 } : State).sp.val = (15 : Fin 16).val + 1 ∧ State.reset.sp.val = 0 := by decide +kernel

theorem witness_CallThenReturn :
    ∃ t u : State, exec (.call 0x300) State.reset = .next t ∧ u.stack = t.stack ∧ u.sp = t.sp := by
  obtain ⟨t, h⟩ := exists_next (r := exec (.call 0x300) State.reset) (by decide +kernel)
  exact ⟨t, t, h, rfl, rfl⟩

/-- `x ≠ VF`, the premise of the result clauses of AddSetsCarry, SubtractSetsNotBorrow and
ShiftsTakeTheirSourceFromVy. -/
theorem witness_results_besides_VF : (0xE : RegIx) ≠ VF := by decide

theorem witness_FlagWritersLeaveZeroOrOne :
    (Instr.addReg VF VF).writesFlag = true ∧ ∃ t : State, exec (.addReg VF VF) State.reset = .next t :=
  ⟨rfl, _, rfl⟩

/-- n = 0 with an invalid I; the last valid run of 15 rows; the first invalid one; a plotted cell that is set, and a
sprite that plots nothing. -/
theorem witness_DrawSprite :
    ((0 : RowCount).val = 0 ∨ ({ State.reset with i := 0xFFFF } : State).base + (0 : RowCount).val ≤ 0x1000) ∧
    ((15 : RowCount).val = 0 ∨ ({ State.reset with i := 0xFF1 } : State).base + (15 : RowCount).val ≤ 0x1000) ∧
    ¬((15 : RowCount).val = 0 ∨ ({ State.reset with i := 0xFF2 } : State).base + (15 : RowCount).val ≤ 0x1000) ∧
    (∃ cx cy : Nat, SpritePlots { State.reset with fb := cellsSet [(0, 0)] } 0 5 0 0 cx cy ∧
      pixel (cellsSet [(0, 0)]) cx cy = true) ∧
    ∀ cx cy : Nat, ¬SpritePlots State.reset 0 0 0 0 cx cy :=
  ⟨by decide +kernel, by decide +kernel, by decide +kernel,
    ⟨0, 0, ⟨0, by decide, 0, by decide, by decide +kernel, by decide, by decide⟩, by decide +kernel⟩,
    fun _ _ ⟨_, h, _⟩ => by omega⟩

theorem witness_DrawingTwiceRestoresTheScreen :
    ∃ t u : State, exec (.drw 0 1 5) State.reset = .next t ∧ u.fb = t.fb ∧ u.v = State.reset.v ∧
      u.i = State.reset.i ∧ ∀ a : Nat, u.byte a = State.reset.byte a := by
  obtain ⟨t, h⟩ := exists_next (r := exec (.drw 0 1 5) State.reset) (by decide +kernel)
  exact ⟨t, { State.reset with fb := t.fb }, h, rfl, rfl, rfl, fun _ => rfl⟩

/-- No key, key 0, key 15, in a running state. -/
theorem witness_WaitForKey :
    (∀ k : RegIx, State.reset.key[k] = false) ∧ (keyOnly State.reset 0).key[(0 : RegIx)] = true ∧
    (∀ j : RegIx, j < 0 → (keyOnly State.reset 0).key[j] = false) ∧
    (keyOnly State.reset 15).key[(15 : RegIx)] = true ∧
    (∀ j : RegIx, j < 15 → (keyOnly State.reset 15).key[j] = false) := by decide +kernel

theorem witness_WaitHangsWithoutAKey :
    waitingA.run = .waitingForKey ∧ ∀ k : RegIx, waitingA.key[k] = false := by decide +kernel

/-- I + 2 = 0xFFF and 0x1000. -/
theorem witness_BcdStoresThreeDigits :
    ({ State.reset with i := 0xFFD } : State).base + 2 ≤ 0xFFF ∧
    0xFFF < ({ State.reset with i := 0xFFE } : State).base + 2 := by decide +kernel

/-- I + 15 = 0xFFF and 0x1000, for FX55 and FX65. -/
theorem witness_BulkStore_BulkLoad :
    ({ State.reset with i := 0xFF0 } : State).base + (15 : RegIx).val ≤ 0xFFF ∧
    0xFFF < ({ State.reset with i := 0xFF1 } : State).base + (15 : RegIx).val := by decide +kernel

theorem witness_StoredBytesAreFetched :
    ∃ t u : State, exec (.ldMemVx 1) { State.reset with i := 0xFFE } = .next t ∧ (∀ a : Nat, u.byte a = t.byte a) ∧
      (1 : RegIx).val = (0 : RegIx).val + 1 ∧ (1 : RegIx) ≤ 1 ∧
      u.pc.toNat = ({ State.reset with i := 0xFFE } : State).base + (0 : RegIx).val := by
  obtain ⟨t, h⟩ := exists_next (r := exec (.ldMemVx 1) { State.reset with i := 0xFFE }) (by decide +kernel)
  exact ⟨t, { t with pc := 0xFFE }, h, fun _ => rfl, rfl, by decide, rfl⟩

/-- Addresses 0xFFF and 0x1000. -/
theorem witness_ByteWrittenIsReadBack : (0xFFF : Nat) ≤ 0xFFF ∧ (0xFFF : Nat) < 0x1000 := by decide

theorem witness_RegistersChangeOnlyByTheirWriters :
    ((∃ t : State, exec (.addReg 0xA 0xB) State.reset = .next t) ∧ (Instr.addReg 0xA 0xB).writesReg 0xB = false) ∧
    ((∃ t : State, waitingCycle (keyOnly waitingA 7) = .next t) ∧ (0 : RegIx) ≠ (keyOnly waitingA 7).waitx) ∧
    (Command.tick.keepsProgram = true ∧ (∀ b : Byte, Command.tick ≠ .cycle b) ∧
      ∃ (t : State) (r : Reply), command .tick State.reset = .next (t, r)) :=
  ⟨⟨⟨_, rfl⟩, by decide⟩, ⟨exists_next (by decide +kernel), by decide +kernel⟩, rfl, by simp, _, _, rfl⟩

theorem witness_InstructionsChangeOnlyTheirParts : ∃ t : State, exec .cls State.reset = .next t := ⟨_, rfl⟩

/-- The invariant is met by the reset state and by a waiting one. -/
theorem witness_reset_inv : State.reset.Inv :=
  ⟨by decide +kernel, fun _ h => absurd h (Nat.not_lt_zero _), rfl, nofun⟩

theorem witness_waiting_inv : waitingA.Inv :=
  ⟨by decide +kernel, fun _ h => absurd h (Nat.not_lt_zero _), by decide +kernel, fun _ => by decide +kernel⟩

theorem witness_StepKeepsTheInvariant :
    waitingA.Inv ∧ step waitingA = .next waitingA := ⟨witness_waiting_inv, eq_next (by decide +kernel)⟩

theorem witness_HostRunsKeepTheInvariant :
    State.reset.Inv ∧ ∃ (u : State) (rs : List Reply), hostRun State.reset [.keyDown 3, .tick, .load [0x12, 0x00]] =
      .ok (u, rs) := ⟨witness_reset_inv, _, _, rfl⟩

theorem witness_FaultRepeatsUntilResetOrLoad :
    cycle 0x5A { start 0x2400 [] with sp := 16 } = .fault (.stackOverflow 0x200) ∧
    ∀ c ∈ [Command.tick, .keyDown 1, .keyUp 16, .clearDraw, .cycle 0], c.keepsProgram = true :=
  ⟨eq_fault (by decide +kernel), by decide⟩

/-- Slot 0 is dead in both states and differs. -/
theorem witness_DeadStackSlotsAreUnobservable :
    SameButDeadSlots State.reset { State.reset with stack := (Vector.replicate 16 0).set 0 0x204 } ∧
    State.reset ≠ { State.reset with stack := (Vector.replicate 16 0).set 0 0x204 } :=
  ⟨⟨rfl, fun _ h => absurd h (Nat.not_lt_zero _)⟩, by decide +kernel⟩

theorem witness_SelfJumpIsTheEnd : (start 0x1200 []).run = .running ∧ ReachedEnd (start 0x1200 []) :=
  ⟨by decide +kernel, 0x200, by decide +kernel, by decide +kernel⟩

/-- Keys 0 and 15, and the indices on both sides of them. -/
theorem witness_KeyCommandsSetOneKey :
    (0 : Int) = ((0 : Fin 16).val : Int) ∧ (15 : Int) = ((15 : Fin 16).val : Int) ∧
    ((-1 : Int) < 0 ∨ 15 < (-1 : Int)) ∧ ((16 : Int) < 0 ∨ 15 < (16 : Int)) := by decide

theorem witness_PressThenReleaseLeavesNoTrace : State.reset.key[(15 : Fin 16)] = false := by decide +kernel

/-- The last font byte and the first byte after it. -/
theorem witness_ResetMemoryIsFontThenZero :
    command .reset waitingA = .next (State.reset, .ok) ∧ 0x4F < 80 ∧ 0x50 ≤ 0x50 ∧ 0x50 ≤ 0xFFF :=
  ⟨rfl, by decide, by decide, by decide⟩

/-- Images of 0xE00 and of 0xE01 bytes, and a command that is not RESET or LOAD. -/
theorem witness_LoadCopiesTheImage :
    (List.replicate 0xE00 (0xAA : Byte)).length ≤ 0xE00 ∧ 0xE00 < (List.replicate 0xE01 (0xAA : Byte)).length ∧
    Command.tick.keepsProgram = true :=
  ⟨List.length_replicate.le, by rw [List.length_replicate]; decide, rfl⟩

end Sys2Proof.Tests
end

/-! PROOFS. Memory (spec/20_memory.md R42, R43). -/

namespace Sys2Proof.Machine

/-! ### The checked access of one byte -/

/-- A one-byte read answers the byte when its address is valid (R42). -/
theorem loadRun_byte (s : State) {a : Nat} (ha : a ≤ 0xFFF) : loadRun s a 1 = .ok [s.byte a] := by
  rw [loadRun_eq, if_pos (by omega)]
  rfl

/-- A one-byte read names its address when that is invalid (R42). -/
theorem loadRun_byte_invalid (s : State) {a : Nat} (ha : 0xFFF < a) : loadRun s a 1 = .error (.outOfRange a) := by
  rw [loadRun_eq, if_neg (by omega), max_eq_left (by omega)]

/-- A one-byte write sets the byte when its address is valid (R43). -/
theorem storeRun_byte (s : State) {a : Nat} (ha : a ≤ 0xFFF) (b : Byte) :
    storeRun s a [b] = .ok (s.setBytes a [b]) := by
  rw [storeRun_eq, List.length_singleton, if_pos (by omega)]

/-- A one-byte write names its address when that is invalid (R43). -/
theorem storeRun_byte_invalid (s : State) {a : Nat} (ha : 0xFFF < a) (b : Byte) :
    storeRun s a [b] = .error (.outOfRange a) := by
  rw [storeRun_eq, List.length_singleton, if_neg (by omega), max_eq_left (by omega)]

/-! ### What a write of bytes changes -/

/-- A write of one byte sets that byte and leaves every other alone. -/
theorem State.byte_setBytes_singleton (s : State) (a : Nat) (b : Byte) (c : Nat) :
    (s.setBytes a [b]).byte c = if c = a then b else s.byte c := by
  rw [State.byte_setBytes]
  by_cases hc : c = a
  · subst hc
    simp
  · have hout : ¬ (a ≤ c ∧ c < a + [b].length) := by
      rw [List.length_singleton]
      omega
    rw [dif_neg hout, if_neg hc]

/-- A write of any length changes memory alone. -/
theorem State.setBytes_onlyChanges_mem (s : State) (base : Nat) (bs : List Byte) :
    OnlyChanges [.mem] s (s.setBytes base bs) := by
  intro p hp
  cases p with
  | mem => exact absurd (List.mem_singleton_self _) hp
  | v | stack | key => exact fun _ => rfl
  | fb => exact fun _ _ _ _ => rfl
  | i | pc | sp | dt | st | draw | run | waitx | font | draws => rfl

/-- Settles O43: a valid address is a run that ends inside MEM, and there the write is `setBytes` and the read is
`byte`; an invalid one is the lowest invalid address of its own run. -/
theorem byteWrittenIsReadBack : Obligations.ByteWrittenIsReadBack := by
  intro s a b
  constructor
  · intro ha
    have hread : loadRun (s.setBytes a [b]) a 1 = .ok [b] := by
      rw [loadRun_byte _ ha, State.byte_setBytes_singleton, if_pos rfl]
    have hother : ∀ c : Nat, c ≠ a → (s.setBytes a [b]).byte c = s.byte c := fun c hc => by
      rw [State.byte_setBytes_singleton, if_neg hc]
    exact ⟨⟨s.setBytes a [b], storeRun_byte s ha b, hread, hother, State.setBytes_onlyChanges_mem s a [b]⟩,
      loadRun_byte s ha⟩
  · intro ha
    exact ⟨storeRun_byte_invalid s ha b, loadRun_byte_invalid s ha⟩

end Sys2Proof.Machine

/-! PROOFS. Fetch and the Running cycle (spec/40_cycle.md R66, R67). -/

namespace Sys2Proof.Machine

/-! ### Fetch, on each side of the last fetchable PC -/

/-- Below 0xFFF both bytes of the word are in MEM. -/
theorem fetchWord_inside {s : State} (h : s.pc.toNat < 0xFFF) : fetchWord s = .ok (s.wordAt s.pc.toNat) := by
  rw [fetchWord_eq, if_pos h]

/-- At 0xFFF the second byte of the word is the invalid one. -/
theorem fetchWord_straddling {s : State} (h : s.pc.toNat = 0xFFF) :
    fetchWord s = .error (.outOfRange (s.pc.toNat + 1)) := by
  rw [fetchWord_eq, if_neg (by omega), max_eq_right (by omega), h]

/-- Above 0xFFF the first byte of the word is invalid already. -/
theorem fetchWord_outside {s : State} (h : 0xFFF < s.pc.toNat) : fetchWord s = .error (.outOfRange s.pc.toNat) := by
  rw [fetchWord_eq, if_neg (by omega), max_eq_left (by omega)]

/-- Settles O7: PC lies above, at or below 0xFFF, and fetch has one answer in each case. -/
theorem fetchFaultsExactlyAtTheEnd : Obligations.FetchFaultsExactlyAtTheEnd := fun s =>
  ⟨fetchWord_outside, fetchWord_straddling, fun h => ⟨_, fetchWord_inside h, s.wordAt_toNat _⟩⟩

/-! ### Fetch then decode, and what a Running cycle makes of the answer -/

/-- A fault of the fetch check comes before any decoding. -/
theorem fetchInstr_of_fetchWord_error {s : State} {f : Fault} (hf : fetchWord s = .error f) :
    fetchInstr s = .error f := by
  simp only [fetchInstr, hf]

/-- A fetched word that does not decode is the fault that names it (R72). -/
theorem fetchInstr_of_decode_error {s : State} {w : Word} {e : DecodeError} (hw : fetchWord s = .ok w)
    (he : decode w = .error e) : fetchInstr s = .error (.unknownOpcode w) := by
  simp only [fetchInstr, hw, he]

theorem fetchInstr_of_decode_ok {s : State} {w : Word} {i : Instr} (hw : fetchWord s = .ok w)
    (hi : decode w = .ok i) : fetchInstr s = .ok i := by
  simp only [fetchInstr, hw, hi]

/-- A Running cycle that gets no instruction ends with the fault it got instead. -/
theorem cycle_of_fetchInstr_error {s : State} (hr : s.run = .running) (r : Byte) {f : Fault}
    (hf : fetchInstr s = .error f) : cycle r s = .fault f := by
  rw [cycle_running hr]
  exact orRaise_fault.2 (.inl hf)

/-- A Running cycle that gets an instruction executes it with the cycle's random byte. -/
theorem cycle_of_fetchInstr_ok {s : State} (hr : s.run = .running) (r : Byte) {i : Instr}
    (hi : fetchInstr s = .ok i) : cycle r s = executeWith r i s := by
  rw [cycle_running hr, hi, orRaise]

/-- Settles O8: fetch-then-decode ends in one of three ways, and the cycle follows each. -/
theorem runningCycleChecksInOrder : Obligations.RunningCycleChecksInOrder := by
  intro r s hr
  refine ⟨fun f hf => ?fetchFault, fun w hw => ⟨fun e he => ?unknownOpcode, fun i hi => ?execute⟩⟩
  case fetchFault => exact cycle_of_fetchInstr_error hr r (fetchInstr_of_fetchWord_error hf)
  case unknownOpcode => exact cycle_of_fetchInstr_error hr r (fetchInstr_of_decode_error hw he)
  case execute => exact cycle_of_fetchInstr_ok hr r (fetchInstr_of_decode_ok hw hi)

end Sys2Proof.Machine

/-! PROOFS. Immediate loads and add (spec/41_immediate.md R74, R75, R76). -/

namespace Sys2Proof.Machine

/-! ### Frames of the one-part writes, and how frames chain -/

theorem Piece.same_trans {p : Piece} {s t u : State} (hst : p.same s t) (htu : p.same t u) : p.same s u := by
  cases p with
  | v | stack | mem | key => exact fun j => (htu j).trans (hst j)
  | fb => exact fun x hx y hy => (htu x hx y hy).trans (hst x hx y hy)
  | i | pc | sp | dt | st | draw | run | waitx | font | draws => exact Eq.trans htu hst

/-- Two changes in a row touch at most the parts that either touches. -/
theorem OnlyChanges.trans {ps qs : List Piece} {s t u : State} (hst : OnlyChanges ps s t)
    (htu : OnlyChanges qs t u) : OnlyChanges (ps ++ qs) s u := fun p hp =>
  Piece.same_trans (hst p fun hps => hp (List.mem_append_left qs hps))
    (htu p fun hqs => hp (List.mem_append_right ps hqs))

theorem State.addPc_onlyChanges_pc (s : State) (n : Word) : OnlyChanges [.pc] s (s.addPc n) := by
  intro p hp
  cases p with
  | pc => exact absurd (List.mem_singleton_self _) hp
  | v | stack | mem | key => exact fun _ => rfl
  | fb => exact fun _ _ _ _ => rfl
  | i | sp | dt | st | draw | run | waitx | font | draws => rfl

theorem State.advance_onlyChanges_pc (s : State) : OnlyChanges [.pc] s s.advance :=
  s.addPc_onlyChanges_pc 2

theorem State.setReg_onlyChanges_v (s : State) (x : RegIx) (b : Byte) : OnlyChanges [.v] s (s.setReg x b) := by
  intro p hp
  cases p with
  | v => exact absurd (List.mem_singleton_self _) hp
  | stack | mem | key => exact fun _ => rfl
  | fb => exact fun _ _ _ _ => rfl
  | i | pc | sp | dt | st | draw | run | waitx | font | draws => rfl

theorem State.withI_onlyChanges_i (s : State) (a : Word) : OnlyChanges [.i] s { s with i := a } := by
  intro p hp
  cases p with
  | i => exact absurd (List.mem_singleton_self _) hp
  | v | stack | mem | key => exact fun _ => rfl
  | fb => exact fun _ _ _ _ => rfl
  | pc | sp | dt | st | draw | run | waitx | font | draws => rfl

/-! ### An instruction that writes one register and moves on -/

theorem State.reg_setReg_same (s : State) (x : RegIx) (b : Byte) : (s.setReg x b).reg x = b := by
  rw [State.reg_setReg, if_pos rfl]

theorem State.setReg_keepsRegsBut (s : State) (x : RegIx) (b : Byte) : KeepsRegsBut [x] s (s.setReg x b) :=
  fun j hj => by rw [State.reg_setReg, if_neg fun hjx => hj (List.mem_singleton.2 hjx)]

/-- Any x, 0xF included: the register, PC and nothing else. -/
theorem State.setReg_advance_spec (s : State) (x : RegIx) (b : Byte) :
    (s.setReg x b).advance.reg x = b ∧ PcMoved 2 s (s.setReg x b).advance ∧
      KeepsRegsBut [x] s (s.setReg x b).advance ∧ OnlyChanges [.v, .pc] s (s.setReg x b).advance :=
  ⟨s.reg_setReg_same x b, (s.setReg x b).advance_toNat, s.setReg_keepsRegsBut x b,
    (s.setReg_onlyChanges_v x b).trans (s.setReg x b).advance_onlyChanges_pc⟩

/-! ### The three instructions -/

theorem exec_ldI (nnn : Addr12) (s : State) : exec (.ldI nnn) s = .next { s with i := zext16 nnn }.advance := rfl

theorem exec_ldImm (x : RegIx) (kk : Byte) (s : State) : exec (.ldImm x kk) s = .next (s.setReg x kk).advance := rfl

theorem exec_addImm (x : RegIx) (kk : Byte) (s : State) :
    exec (.addImm x kk) s = .next (s.setReg x (s.reg x + kk)).advance := rfl

/-- Settles O14: ANNN writes I and advances; 6XKK and 7XKK write one register and advance, and the byte sum of 7XKK is
the sum of the numbers modulo 256. -/
theorem immediateLoadsAndAdd : Obligations.ImmediateLoadsAndAdd := by
  intro x kk nnn s
  refine ⟨⟨_, exec_ldI nnn s, ?iResult, ?iPc, ?iFrame⟩, ⟨_, exec_ldImm x kk s, s.setReg_advance_spec x kk⟩,
    ⟨_, exec_addImm x kk s, ?add⟩⟩
  case iResult => exact zext16_toNat (by decide) nnn
  case iPc => exact State.advance_toNat { s with i := zext16 nnn }
  case iFrame => exact (s.withI_onlyChanges_i (zext16 nnn)).trans (State.advance_onlyChanges_pc _)
  case add =>
    obtain ⟨hreg, hframe⟩ := s.setReg_advance_spec x (s.reg x + kk)
    exact ⟨by rw [hreg, BitVec.toNat_add], hframe⟩

end Sys2Proof.Machine

/-! PROOFS. The jump and the register skips (spec/42_control_flow.md R81, R83 to R86). -/

namespace Sys2Proof.Machine

/-! ### The jump -/

theorem State.jump_onlyChanges_pc (s : State) (target : Word) : OnlyChanges [.pc] s (s.jump target) := by
  intro p hp
  cases p with
  | pc => exact absurd (List.mem_singleton_self _) hp
  | v | stack | mem | key => exact fun _ => rfl
  | fb => exact fun _ _ _ _ => rfl
  | i | sp | dt | st | draw | run | waitx | font | draws => rfl

theorem exec_jp (nnn : Addr12) (s : State) : exec (.jp nnn) s = .next (s.jump (zext16 nnn)) := rfl

/-- Settles O17: the target is nnn widened to a word, which is the same number. -/
theorem jumpReplacesPc : Obligations.JumpReplacesPc := fun nnn s =>
  ⟨_, exec_jp nnn s, zext16_toNat (by decide) nnn, s.jump_onlyChanges_pc (zext16 nnn)⟩

/-! ### The skips -/

theorem State.skipIf_onlyChanges_pc (s : State) (c : Bool) : OnlyChanges [.pc] s (s.skipIf c) := by
  cases c with
  | true => exact s.addPc_onlyChanges_pc 4
  | false => exact s.addPc_onlyChanges_pc 2

/-- The Boolean that `skipIf` tests decides the condition that the skip's rule states. -/
theorem State.skipIf_pcSkipped (s : State) {c : Bool} {P : Prop} (hc : c = true ↔ P) :
    PcSkipped P s (s.skipIf c) := by
  refine ⟨fun hP => ?skip, fun hP => ?noSkip⟩
  case skip => exact (s.skipIf_toNat c).trans (by rw [if_pos (hc.2 hP)])
  case noSkip => exact (s.skipIf_toNat c).trans (by rw [if_neg (mt hc.1 hP)])

/-- Every instruction whose meaning is a `skipIf` goes on 4 bytes or 2 and changes PC alone. -/
theorem exec_skip_spec {i : Instr} {s : State} {c : Bool} {P : Prop} (hexec : exec i s = .next (s.skipIf c))
    (hc : c = true ↔ P) : ∃ t : State, exec i s = .next t ∧ PcSkipped P s t ∧ OnlyChanges [.pc] s t :=
  ⟨_, hexec, s.skipIf_pcSkipped hc, s.skipIf_onlyChanges_pc c⟩

theorem exec_seImm (x : RegIx) (kk : Byte) (s : State) :
    exec (.seImm x kk) s = .next (s.skipIf (s.reg x == kk)) := rfl

theorem exec_sneImm (x : RegIx) (kk : Byte) (s : State) :
    exec (.sneImm x kk) s = .next (s.skipIf (s.reg x != kk)) := rfl

theorem exec_seReg (x y : RegIx) (s : State) :
    exec (.seReg x y) s = .next (s.skipIf (s.reg x == s.reg y)) := rfl

theorem exec_sneReg (x y : RegIx) (s : State) :
    exec (.sneReg x y) s = .next (s.skipIf (s.reg x != s.reg y)) := rfl

/-- Settles O22: the four skips differ only in their test, and each test decides its rule's condition. -/
theorem skipsCompareRegisters : Obligations.SkipsCompareRegisters := fun x y kk s =>
  ⟨exec_skip_spec (exec_seImm x kk s) beq_iff_eq, exec_skip_spec (exec_sneImm x kk s) bne_iff_ne,
    exec_skip_spec (exec_seReg x y s) beq_iff_eq, exec_skip_spec (exec_sneReg x y s) bne_iff_ne⟩

end Sys2Proof.Machine

/-! PROOFS. Move and logic (spec/43_alu.md R89 to R92). -/

namespace Sys2Proof.Machine

theorem exec_ldReg (x y : RegIx) (s : State) : exec (.ldReg x y) s = .next (s.setReg x (s.reg y)).advance := rfl

theorem exec_orReg (x y : RegIx) (s : State) :
    exec (.orReg x y) s = .next (s.setReg x (s.reg x ||| s.reg y)).advance := rfl

theorem exec_andReg (x y : RegIx) (s : State) :
    exec (.andReg x y) s = .next (s.setReg x (s.reg x &&& s.reg y)).advance := rfl

theorem exec_xorReg (x y : RegIx) (s : State) :
    exec (.xorReg x y) s = .next (s.setReg x (s.reg x ^^^ s.reg y)).advance := rfl

/-- Every instruction that writes Vx with a byte made bit by bit from Vx and Vy leaves those bits in Vx, moves on and
changes nothing else; with x = y, both operands are the old Vx. -/
theorem exec_bitwise_spec {i : Instr} {x y : RegIx} {s : State} {r : Byte} {f : Bool → Bool → Bool}
    (hexec : exec i s = .next (s.setReg x r).advance)
    (hbits : ∀ b : Nat, r.getLsbD b = f ((s.reg x).getLsbD b) ((s.reg y).getLsbD b)) :
    ∃ t : State, exec i s = .next t ∧
      (∀ b < 8, (t.reg x).getLsbD b = f ((s.reg x).getLsbD b) ((s.reg y).getLsbD b)) ∧
      PcMoved 2 s t ∧ KeepsRegsBut [x] s t ∧ OnlyChanges [.v, .pc] s t := by
  obtain ⟨hreg, hframe⟩ := s.setReg_advance_spec x r
  exact ⟨_, hexec, fun b _ => by rw [hreg, hbits], hframe⟩

/-- Settles O23: all four write one register and advance; the three logic forms differ only in the Boolean function
that acts on each bit. -/
theorem moveAndLogic : Obligations.MoveAndLogic := fun x y s =>
  ⟨⟨_, exec_ldReg x y s, s.setReg_advance_spec x (s.reg y)⟩,
    exec_bitwise_spec (f := or) (exec_orReg x y s) fun _ => BitVec.getLsbD_or,
    exec_bitwise_spec (f := and) (exec_andReg x y s) fun _ => BitVec.getLsbD_and,
    exec_bitwise_spec (f := xor) (exec_xorReg x y s) fun _ => BitVec.getLsbD_xor⟩

end Sys2Proof.Machine

/-! PROOFS. Graphics: one cell plotted (spec/44_graphics.md R101). -/

namespace Sys2Proof.Machine

/-- The cell SetPixel plots is inverted (R101). -/
theorem setPixel_pixel_plotted (fb : Framebuffer) (x y : Nat) :
    pixel (setPixel fb x y).1 (x % 64) (y % 32) = !pixel fb (x % 64) (y % 32) := by
  rw [setPixel_pixel, decide_eq_true ⟨rfl, rfl⟩, Bool.xor_true]

/-- The frame of SetPixel: a cell other than the one plotted keeps its value (R101). -/
theorem setPixel_pixel_other (fb : Framebuffer) {x y cx cy : Nat} (hne : ¬(cx = x % 64 ∧ cy = y % 32)) :
    pixel (setPixel fb x y).1 cx cy = pixel fb cx cy := by
  rw [setPixel_pixel, decide_eq_false hne, Bool.xor_false]

/-- Settles O28: the plotted cell is inverted after its old value is reported, and the frame covers every other cell. -/
theorem setPixelFlipsOneCell : Obligations.SetPixelFlipsOneCell := fun fb x y =>
  ⟨setPixel_hit fb x y, setPixel_pixel_plotted fb x y, fun _ _ _ _ hne => setPixel_pixel_other fb hne⟩

end Sys2Proof.Machine

/-! PROOFS. Input (spec/45_input.md R107 to R113). -/

namespace Sys2Proof.Machine

/-- Settles O32: the keys are searched in ascending order, so the first one found down is the lowest. -/
theorem lowestPressedKeyWins : Obligations.LowestPressedKeyWins := fun s =>
  ⟨s.anyDown_eq_some, s.anyDown_eq_none⟩

/-! ### The key skips -/

/-- IsDown's range test decides KeyDown, so a value above 15 is a key that is not down (R109). -/
theorem State.isDown_iff_keyDown (s : State) (k : Nat) : s.isDown k = true ↔ KeyDown s k := s.isDown_iff k

theorem State.not_isDown_iff_not_keyDown (s : State) (k : Nat) : (!s.isDown k) = true ↔ ¬KeyDown s k := by
  rw [← s.isDown_iff_keyDown k, Bool.not_eq_true', Bool.not_eq_true]

theorem exec_skp (x : RegIx) (s : State) : exec (.skp x) s = .next (s.skipIf (s.isDown (s.reg x).toNat)) := rfl

theorem exec_sknp (x : RegIx) (s : State) : exec (.sknp x) s = .next (s.skipIf (!s.isDown (s.reg x).toNat)) := rfl

/-- Settles O33: both are skips, on IsDown of Vx and on its negation, and IsDown answers for every value of Vx. -/
theorem skipsOnKey : Obligations.SkipsOnKey := fun x s =>
  ⟨exec_skip_spec (exec_skp x s) (s.isDown_iff_keyDown (s.reg x).toNat),
    exec_skip_spec (exec_sknp x s) (s.not_isDown_iff_not_keyDown (s.reg x).toNat)⟩

/-! ### The key commands -/

theorem State.withKey_onlyChanges_key (s : State) (ks : Vector Bool 16) :
    OnlyChanges [.key] s { s with key := ks } := by
  intro p hp
  cases p with
  | key => exact absurd (List.mem_singleton_self _) hp
  | v | stack | mem => exact fun _ => rfl
  | fb => exact fun _ _ _ _ => rfl
  | i | pc | sp | dt | st | draw | run | waitx | font | draws => rfl

theorem setKey_of_key (j : Fin 16) (b : Bool) (s : State) :
    setKey (j.val : Int) b s = .next ({ s with key := s.key.set j.val b }, .ok) := by
  obtain ⟨i, hi, hset⟩ | ⟨hout, -⟩ := setKey_cases (j.val : Int) b s
  · obtain rfl : j = i := Fin.ext (Int.ofNat_inj.1 hi)
    exact hset
  · omega

theorem setKey_of_outside {k : Int} (hk : k < 0 ∨ 15 < k) (b : Bool) (s : State) :
    setKey k b s = .fault (.invalidKey k) := by
  obtain ⟨j, hj, -⟩ | ⟨-, hfault⟩ := setKey_cases k b s
  · omega
  · exact hfault

/-- For a key of the keypad, whatever its value was: that key, and nothing else. -/
theorem setKey_spec (j : Fin 16) (b : Bool) (s : State) :
    ∃ t : State, setKey (j.val : Int) b s = .next (t, .ok) ∧ t.key[j] = b ∧
      (∀ l : Fin 16, l ≠ j → t.key[l] = s.key[l]) ∧ OnlyChanges [.key] s t := by
  refine ⟨_, setKey_of_key j b s, Vector.getElem_set_self j.isLt, fun l hl => ?other, s.withKey_onlyChanges_key _⟩
  case other => exact Vector.getElem_set_ne j.isLt l.isLt fun hjl => hl (Fin.ext hjl.symm)

/-- Settles O52: KEY_DOWN and KEY_UP are `setKey` with true and with false, and `setKey` tests the index first. -/
theorem keyCommandsSetOneKey : Obligations.KeyCommandsSetOneKey := by
  intro k s
  refine ⟨fun j hj => ?key, fun hk => ?outside⟩
  case key =>
    subst hj
    exact ⟨setKey_spec j true s, setKey_spec j false s⟩
  case outside => exact ⟨setKey_of_outside hk true s, setKey_of_outside hk false s⟩

end Sys2Proof.Machine

/-! PROOFS. The delay timer (spec/46_timers_memory.md R115, R116). -/

namespace Sys2Proof.Machine

theorem State.withDt_onlyChanges_dt (s : State) (b : Byte) : OnlyChanges [.dt] s { s with dt := b } := by
  intro p hp
  cases p with
  | dt => exact absurd (List.mem_singleton_self _) hp
  | v | stack | mem | key => exact fun _ => rfl
  | fb => exact fun _ _ _ _ => rfl
  | i | pc | sp | st | draw | run | waitx | font | draws => rfl

theorem exec_ldVxDt (x : RegIx) (s : State) : exec (.ldVxDt x) s = .next (s.setReg x s.dt).advance := rfl

theorem exec_ldDtVx (x : RegIx) (s : State) : exec (.ldDtVx x) s = .next { s with dt := s.reg x }.advance := rfl

/-- Settles O36: FX07 writes one register and advances; FX15 writes DT and advances. -/
theorem delayTimerReadAndSet : Obligations.DelayTimerReadAndSet := by
  intro x s
  refine ⟨⟨_, exec_ldVxDt x s, s.setReg_advance_spec x s.dt⟩, ⟨_, exec_ldDtVx x s, rfl, ?pc, ?frame⟩⟩
  case pc => exact State.advance_toNat { s with dt := s.reg x }
  case frame => exact (s.withDt_onlyChanges_dt (s.reg x)).trans (State.advance_onlyChanges_pc _)

end Sys2Proof.Machine

/-! PROOFS. The decimal store (spec/46_timers_memory.md R120). -/

namespace Sys2Proof.Machine

/-! ### An instruction that writes a run of bytes and moves on -/

theorem State.byte_setBytes_inside (s : State) (base : Nat) (bs : List Byte) {k : Nat} (hk : k < bs.length) :
    (s.setBytes base bs).byte (base + k) = bs[k] := by
  rw [State.byte_setBytes, dif_pos (by omega)]
  simp only [Nat.add_sub_cancel_left]

theorem State.byte_setBytes_outside (s : State) {base : Nat} {bs : List Byte} {a : Nat}
    (ha : ¬(base ≤ a ∧ a < base + bs.length)) : (s.setBytes base bs).byte a = s.byte a := by
  rw [State.byte_setBytes, dif_neg ha]

/-- Any run of bytes: memory and PC, and no other part. -/
theorem State.setBytes_advance_frame (s : State) (base : Nat) (bs : List Byte) :
    PcMoved 2 s (s.setBytes base bs).advance ∧ OnlyChanges [.mem, .pc] s (s.setBytes base bs).advance :=
  ⟨(s.setBytes base bs).advance_toNat,
    (s.setBytes_onlyChanges_mem base bs).trans (s.setBytes base bs).advance_onlyChanges_pc⟩

/-! ### The digits -/

theorem bcdDigits_length (b : Byte) : (bcdDigits b).length = 3 := rfl

/-- A number below 256 is not cut when it becomes a byte. -/
theorem byte_ofNat_toNat {d : Nat} (hd : d < 256) : (BitVec.ofNat 8 d).toNat = d := by
  rw [BitVec.toNat_ofNat, Nat.mod_eq_of_lt hd]

/-- The three bytes that a store of the digits leaves are R120's quotients and remainders, as numbers. -/
theorem State.byte_setBytes_bcdDigits (s : State) (base : Nat) (b : Byte) :
    ((s.setBytes base (bcdDigits b)).byte base).toNat = b.toNat / 100 ∧
      ((s.setBytes base (bcdDigits b)).byte (base + 1)).toNat = b.toNat / 10 % 10 ∧
      ((s.setBytes base (bcdDigits b)).byte (base + 2)).toNat = b.toNat % 10 := by
  have hb : b.toNat < 256 := b.isLt
  have hdigit (k : Nat) (hk : k < 3) :=
    s.byte_setBytes_inside base (bcdDigits b) (hk.trans_eq (bcdDigits_length b).symm)
  refine ⟨?hundreds, ?tens, ?ones⟩
  case hundreds => exact (congrArg BitVec.toNat (hdigit 0 (by decide))).trans (byte_ofNat_toNat (by omega))
  case tens => exact (congrArg BitVec.toNat (hdigit 1 (by decide))).trans (byte_ofNat_toNat (by omega))
  case ones => exact (congrArg BitVec.toNat (hdigit 2 (by decide))).trans (byte_ofNat_toNat (by omega))

/-! ### FX33, on each side of the last address that holds three bytes -/

theorem exec_ldBVx_inside {s : State} (h : s.base + 2 ≤ 0xFFF) (x : RegIx) :
    exec (.ldBVx x) s = .next (s.setBytes s.base (bcdDigits (s.reg x))).advance :=
  (execLdBVx_eq x s).trans (if_pos h)

theorem exec_ldBVx_outside {s : State} (h : 0xFFF < s.base + 2) (x : RegIx) :
    exec (.ldBVx x) s = .fault (.outOfRange (max s.base 0x1000)) :=
  (execLdBVx_eq x s).trans (if_neg (Nat.not_le.2 h))

/-- Settles O39: inside MEM the three bytes from I are the digits and every other byte is outside that run; otherwise
the run check faults before any byte is written. -/
theorem bcdStoresThreeDigits : Obligations.BcdStoresThreeDigits := by
  intro x s
  refine ⟨fun hin => ?stored, fun hout => exec_ldBVx_outside hout x⟩
  case stored =>
    obtain ⟨hhundreds, htens, hones⟩ := s.byte_setBytes_bcdDigits s.base (s.reg x)
    have hother (a : Nat) (ha : ¬(s.base ≤ a ∧ a ≤ s.base + 2)) :
        (s.setBytes s.base (bcdDigits (s.reg x))).byte a = s.byte a :=
      s.byte_setBytes_outside (by rw [bcdDigits_length]; omega)
    exact ⟨_, exec_ldBVx_inside hin x, hhundreds, htens, hones, hother,
      s.setBytes_advance_frame s.base (bcdDigits (s.reg x))⟩

end Sys2Proof.Machine

/-! PROOFS. The decoder and the encoder (spec/30_encoding.md R57 to R63). -/

namespace Sys2Proof

/-! ### A word put together from its own fields -/

theorem formatNNN_of_fieldOp {w : Word} {op : BitVec 4} (hop : fieldOp w = op) : formatNNN op (fieldNNN w) = w := by
  apply BitVec.eq_of_toNat_eq
  rw [formatNNN_toNat, ← hop, fieldOp_toNat, fieldNNN_toNat]
  omega

theorem formatXKK_of_fieldOp {w : Word} {op : BitVec 4} (hop : fieldOp w = op) :
    formatXKK op (fieldX w) (fieldKK w) = w := by
  apply BitVec.eq_of_toNat_eq
  rw [formatXKK_toNat, ← hop, fieldOp_toNat, fieldX_val, fieldKK_toNat]
  omega

theorem formatXYN_of_fieldOp {w : Word} {op : BitVec 4} (hop : fieldOp w = op) :
    formatXYN op (fieldX w) (fieldY w) (fieldN w) = w := by
  apply BitVec.eq_of_toNat_eq
  rw [formatXYN_toNat, ← hop, fieldOp_toNat, fieldX_val, fieldY_val, fieldN_toNat]
  omega

theorem formatX_of_fields {w : Word} {op : BitVec 4} {kk : Byte} (hop : fieldOp w = op) (hkk : fieldKK w = kk) :
    formatXKK op (fieldX w) kk = w := hkk ▸ formatXKK_of_fieldOp hop

theorem formatXY_of_fields {w : Word} {op n : BitVec 4} (hop : fieldOp w = op) (hn : fieldN w = n) :
    formatXYN op (fieldX w) (fieldY w) n = w := hn ▸ formatXYN_of_fieldOp hop

/-! ### Decode after encode -/

/-- Settles O1: the encoder's formats give each field back, and the decoder selects by the fields that the format
fixes. -/
theorem decodeUndoesEncode : Obligations.DecodeUndoesEncode := by
  intro i
  cases i with
  | cls | ret => rfl
  | ldI | jp | call | jpV0 => simp [encode, decode]
  | seImm | sneImm | ldImm | addImm | rnd => simp [encode, decode]
  | drw => simp [encode, decode]
  | seReg => simp [encode, decode, decodeGroup5]
  | sneReg => simp [encode, decode, decodeGroup9]
  | ldReg | orReg | andReg | xorReg | addReg | sub | shr | subn | shl => simp [encode, decode, decodeGroup8]
  | skp | sknp => simp [encode, decode, decodeGroupE]
  | ldVxDt | ldVxK | ldDtVx | ldStVx | addIVx | ldFVx | ldBVx | ldMemVx | ldVxMem =>
    simp [encode, decode, decodeGroupF]

/-! ### Encode after decode, group by group -/

theorem encode_of_decodeGroup0 {w : Word} {i : Instr} (h : decodeGroup0 w = .ok i) : encode i = w := by
  unfold decodeGroup0 at h
  split at h
  · cases h; exact .symm ‹_›
  · split at h <;> cases h
    exact .symm ‹_›

theorem encode_of_decodeGroup5 {w : Word} {i : Instr} (hop : fieldOp w = 0x5#4) (h : decodeGroup5 w = .ok i) :
    encode i = w := by
  unfold decodeGroup5 at h
  split at h <;> cases h
  exact formatXY_of_fields hop ‹_›

theorem encode_of_decodeGroup8 {w : Word} {i : Instr} (hop : fieldOp w = 0x8#4) (h : decodeGroup8 w = .ok i) :
    encode i = w := by
  unfold decodeGroup8 at h
  split at h <;> cases h <;> exact formatXY_of_fields hop ‹_›

theorem encode_of_decodeGroup9 {w : Word} {i : Instr} (hop : fieldOp w = 0x9#4) (h : decodeGroup9 w = .ok i) :
    encode i = w := by
  unfold decodeGroup9 at h
  split at h <;> cases h
  exact formatXY_of_fields hop ‹_›

theorem encode_of_decodeGroupE {w : Word} {i : Instr} (hop : fieldOp w = 0xE#4) (h : decodeGroupE w = .ok i) :
    encode i = w := by
  unfold decodeGroupE at h
  repeat' split at h
  all_goals cases h
  all_goals exact formatX_of_fields hop ‹_›

theorem encode_of_decodeGroupF {w : Word} {i : Instr} (hop : fieldOp w = 0xF#4) (h : decodeGroupF w = .ok i) :
    encode i = w := by
  unfold decodeGroupF at h
  repeat' split at h
  all_goals cases h
  all_goals exact formatX_of_fields hop ‹_›

/-- Settles O2: each branch of the decoder fixes exactly the fields that the format of its instruction writes, and
takes the operands from the others. -/
theorem encodeUndoesDecode : Obligations.EncodeUndoesDecode := by
  intro w i h
  unfold decode at h
  split at h
  case h_1 => exact encode_of_decodeGroup0 h
  case h_6 hop => exact encode_of_decodeGroup5 hop h
  case h_9 hop => exact encode_of_decodeGroup8 hop h
  case h_10 hop => exact encode_of_decodeGroup9 hop h
  case h_15 hop => exact encode_of_decodeGroupE hop h
  case h_16 =>
    have hop : fieldOp w = 0xF#4 := by simp only [imp_false] at *; bv_omega
    exact encode_of_decodeGroupF hop h
  all_goals cases h
  case h_2 hop | h_3 hop | h_11 hop | h_12 hop => exact formatNNN_of_fieldOp hop
  case h_4 hop | h_5 hop | h_7 hop | h_8 hop | h_13 hop => exact formatXKK_of_fieldOp hop
  case h_14 hop => exact formatXYN_of_fieldOp hop

/-! ### The words that do not decode -/

theorem fieldOp_eq_iff {w : Word} {op : BitVec 4} : fieldOp w = op ↔ w.toNat / 0x1000 = op.toNat := by
  rw [← BitVec.toNat_inj, fieldOp_toNat]

theorem fieldN_eq_iff {w : Word} {n : BitVec 4} : fieldN w = n ↔ w.toNat % 0x10 = n.toNat := by
  rw [← BitVec.toNat_inj, fieldN_toNat]

theorem fieldKK_eq_iff {w : Word} {kk : Byte} : fieldKK w = kk ↔ w.toNat % 0x100 = kk.toNat := by
  rw [← BitVec.toNat_inj, fieldKK_toNat]

theorem decodeGroup0_error_iff (w : Word) :
    decodeGroup0 w = .error (.unknown w) ↔ w.toNat ≠ 0x00E0 ∧ w.toNat ≠ 0x00EE := by
  unfold decodeGroup0
  split
  · simp_all [BitVec.toNat_eq]
  · split <;> simp_all [BitVec.toNat_eq]

theorem decodeGroup5_error_iff (w : Word) : decodeGroup5 w = .error (.unknown w) ↔ w.toNat % 0x10 ≠ 0 := by
  unfold decodeGroup5
  split <;> simp_all [fieldN_eq_iff]

theorem decodeGroup8_error_iff (w : Word) : decodeGroup8 w = .error (.unknown w) ↔
    8 ≤ w.toNat % 0x10 ∧ w.toNat % 0x10 ≤ 0xD ∨ w.toNat % 0x10 = 0xF := by
  unfold decodeGroup8
  split <;> simp_all [fieldN_eq_iff]
  omega

theorem decodeGroup9_error_iff (w : Word) : decodeGroup9 w = .error (.unknown w) ↔ w.toNat % 0x10 ≠ 0 := by
  unfold decodeGroup9
  split <;> simp_all [fieldN_eq_iff]

theorem decodeGroupE_error_iff (w : Word) : decodeGroupE w = .error (.unknown w) ↔
    w.toNat % 0x100 ≠ 0x9E ∧ w.toNat % 0x100 ≠ 0xA1 := by
  unfold decodeGroupE
  repeat' split
  all_goals simp_all [fieldKK_eq_iff]

theorem decodeGroupF_error_iff (w : Word) : decodeGroupF w = .error (.unknown w) ↔
    w.toNat % 0x100 ∉ [0x07, 0x0A, 0x15, 0x18, 0x1E, 0x29, 0x33, 0x55, 0x65] := by
  unfold decodeGroupF
  repeat' split
  all_goals simp_all [fieldKK_eq_iff]

/-- Settles O4: in the groups 0, 5, 8, 9, E and F the rest of the word decides, and in the others every word decodes. -/
theorem illegalWordsAreTheListedRanges : Obligations.IllegalWordsAreTheListedRanges := by
  intro w
  unfold decode
  split
  case h_1 hop =>
    have hle : w.toNat ≤ 0x0FFF := by rw [fieldOp_eq_iff, BitVec.toNat_ofNat] at hop; omega
    rw [decodeGroup0_error_iff]
    omega
  case h_16 =>
    have hop : w.toNat / 0x1000 = 0xF := by rw [← fieldOp_toNat]; simp only [imp_false] at *; bv_omega
    rw [decodeGroupF_error_iff]
    have hle : ¬ w.toNat ≤ 0x0FFF := by omega
    simp [hop, hle]
  all_goals
    rename_i hop
    rw [fieldOp_eq_iff, BitVec.toNat_ofNat] at hop
    have hle : ¬ w.toNat ≤ 0x0FFF := by omega
    simp [hop, hle, decodeGroup5_error_iff, decodeGroup8_error_iff, decodeGroup9_error_iff, decodeGroupE_error_iff]

/-- The one reason the decoder gives names the word itself. -/
theorem decode_error {w : Word} {e : DecodeError} (h : decode w = .error e) : e = .unknown w := by
  unfold decode decodeGroup0 decodeGroup5 decodeGroup8 decodeGroup9 decodeGroupE decodeGroupF at h
  repeat' split at h
  all_goals cases h
  all_goals rfl

/-! ### The rows of the opcode table -/

theorem fieldOp_and (a b : Word) : fieldOp (a &&& b) = fieldOp a &&& fieldOp b := BitVec.extractLsb'_and

theorem fieldN_and (a b : Word) : fieldN (a &&& b) = fieldN a &&& fieldN b := BitVec.extractLsb'_and

theorem fieldKK_and (a b : Word) : fieldKK (a &&& b) = fieldKK a &&& fieldKK b := BitVec.extractLsb'_and

theorem fieldOp_of_mask {w m p : Word} (h : w &&& m = p) (hm : fieldOp m = 0xF#4) : fieldOp w = fieldOp p := by
  rw [← h, fieldOp_and, hm]
  exact BitVec.and_allOnes.symm

theorem fieldN_of_mask {w m p : Word} (h : w &&& m = p) (hm : fieldN m = 0xF#4) : fieldN w = fieldN p := by
  rw [← h, fieldN_and, hm]
  exact BitVec.and_allOnes.symm

theorem fieldKK_of_mask {w m p : Word} (h : w &&& m = p) (hm : fieldKK m = 0xFF#8) : fieldKK w = fieldKK p := by
  rw [← h, fieldKK_and, hm]
  exact BitVec.and_allOnes.symm

theorem OpcodeRow.matchesWord_iff (r : OpcodeRow) (w : Word) : r.matchesWord w = true ↔ w &&& r.mask = r.pattern :=
  beq_iff_eq

/-- A row fixes the op nibble, and with it at least the fields that the decoder looks at in that group. -/
theorem opcodeTable_masks : ∀ r ∈ opcodeTable, fieldOp r.mask = 0xF#4 ∧
    (fieldOp r.pattern = 0x0#4 → r.mask = 0xFFFF#16) ∧
    (fieldOp r.pattern = 0x5#4 ∨ fieldOp r.pattern = 0x8#4 ∨ fieldOp r.pattern = 0x9#4 → fieldN r.mask = 0xF#4) ∧
    (fieldOp r.pattern = 0xE#4 ∨ fieldOp r.pattern = 0xF#4 → fieldKK r.mask = 0xFF#8) := by decide

theorem opcodeTable_patterns_decode : ∀ r ∈ opcodeTable, decode r.pattern ≠ .error (.unknown r.pattern) := by decide

/-- Two different rows disagree on a bit that both fix. -/
theorem opcodeTable_disjoint :
    opcodeTable.Pairwise fun r r' => r.pattern &&& r'.mask ≠ r'.pattern &&& r.mask := by decide

/-- The family OwnRow, of every instruction. -/
theorem ownRow (i : Instr) : Laws.OwnRow.Statement i := by
  cases i with
  | ldI nnn => exact Laws.OwnRow.ldI nnn
  | cls => exact Laws.OwnRow.cls
  | ret => exact Laws.OwnRow.ret
  | jp nnn => exact Laws.OwnRow.jp nnn
  | call nnn => exact Laws.OwnRow.call nnn
  | seImm x kk => exact Laws.OwnRow.seImm x kk
  | sneImm x kk => exact Laws.OwnRow.sneImm x kk
  | seReg x y => exact Laws.OwnRow.seReg x y
  | sneReg x y => exact Laws.OwnRow.sneReg x y
  | ldImm x kk => exact Laws.OwnRow.ldImm x kk
  | addImm x kk => exact Laws.OwnRow.addImm x kk
  | ldReg x y => exact Laws.OwnRow.ldReg x y
  | orReg x y => exact Laws.OwnRow.orReg x y
  | andReg x y => exact Laws.OwnRow.andReg x y
  | xorReg x y => exact Laws.OwnRow.xorReg x y
  | addReg x y => exact Laws.OwnRow.addReg x y
  | sub x y => exact Laws.OwnRow.sub x y
  | shr x y => exact Laws.OwnRow.shr x y
  | subn x y => exact Laws.OwnRow.subn x y
  | shl x y => exact Laws.OwnRow.shl x y
  | jpV0 nnn => exact Laws.OwnRow.jpV0 nnn
  | rnd x kk => exact Laws.OwnRow.rnd x kk
  | drw x y n => exact Laws.OwnRow.drw x y n
  | skp x => exact Laws.OwnRow.skp x
  | sknp x => exact Laws.OwnRow.sknp x
  | ldVxDt x => exact Laws.OwnRow.ldVxDt x
  | ldVxK x => exact Laws.OwnRow.ldVxK x
  | ldDtVx x => exact Laws.OwnRow.ldDtVx x
  | ldStVx x => exact Laws.OwnRow.ldStVx x
  | addIVx x => exact Laws.OwnRow.addIVx x
  | ldFVx x => exact Laws.OwnRow.ldFVx x
  | ldBVx x => exact Laws.OwnRow.ldBVx x
  | ldMemVx x => exact Laws.OwnRow.ldMemVx x
  | ldVxMem x => exact Laws.OwnRow.ldVxMem x

/-- A word in a row of the table decodes: the row fixes every field that the decoder looks at, so the word would be in
the same illegal range as the row's pattern. -/
theorem decode_of_row {r : OpcodeRow} {w : Word} (hr : r ∈ opcodeTable) (hrow : r.matchesWord w = true) :
    decode w ≠ .error (.unknown w) := by
  intro hd
  apply opcodeTable_patterns_decode r hr
  obtain ⟨hmaskOp, hmask0, hmaskN, hmaskKK⟩ := opcodeTable_masks r hr
  rw [r.matchesWord_iff] at hrow
  have hop := fieldOp_of_mask hrow hmaskOp
  have hn (h : fieldN r.mask = 0xF#4) := fieldN_of_mask hrow h
  have hkk (h : fieldKK r.mask = 0xFF#8) := fieldKK_of_mask hrow h
  have hword (h : r.mask = 0xFFFF#16) : w = r.pattern := by rw [← hrow, h]; exact BitVec.and_allOnes.symm
  simp only [← BitVec.toNat_inj, fieldOp_toNat, fieldN_toNat, fieldKK_toNat, BitVec.toNat_ofNat] at *
  rw [illegalWordsAreTheListedRanges] at hd ⊢
  obtain ⟨h0, hne⟩ | h5 | h8 | h9 | hE | ⟨hF, hne⟩ := hd
  · have := hword (hmask0 (by omega))
    exact .inl (this ▸ ⟨h0, hne⟩)
  · have := hn (hmaskN (by omega))
    omega
  · have := hn (hmaskN (by omega))
    omega
  · have := hn (hmaskN (by omega))
    omega
  · have := hkk (hmaskKK (by omega))
    omega
  · have := hkk (hmaskKK (by omega))
    iterate 5 right
    exact ⟨by omega, this ▸ hne⟩

/-- Two rows that both have the word would agree on every bit that both fix. -/
theorem opcodeTable_filter_eq_singleton {r : OpcodeRow} {w : Word} (hr : r ∈ opcodeTable)
    (hw : r.matchesWord w = true) : opcodeTable.filter (·.matchesWord w) = [r] := by
  have hmem : r ∈ opcodeTable.filter (·.matchesWord w) := List.mem_filter.2 ⟨hr, hw⟩
  have hall : ∀ q ∈ opcodeTable.filter (·.matchesWord w), w &&& q.mask = q.pattern := fun q hq =>
    q.matchesWord_iff w |>.1 (List.mem_filter.1 hq).2
  have hdis := opcodeTable_disjoint.filter (·.matchesWord w)
  generalize opcodeTable.filter (·.matchesWord w) = rows at hmem hall hdis
  match rows with
  | [q] => rw [List.mem_singleton.1 hmem]
  | q :: q' :: _ =>
    have hq : w &&& q.mask = q.pattern := hall q (by simp)
    have hq' : w &&& q'.mask = q'.pattern := hall q' (by simp)
    refine absurd ?_ (List.rel_of_pairwise_cons hdis List.mem_cons_self)
    rw [← hq, ← hq']
    ac_rfl

/-- Settles O3: a word that decodes is its instruction's encoding, which lies in that instruction's row and so in no
other; a word in any row decodes. -/
theorem decodedWordLiesInItsOwnRowOnly : Obligations.DecodedWordLiesInItsOwnRowOnly := by
  intro w
  cases hd : decode w with
  | ok i =>
    obtain ⟨r, hr, hm, hw⟩ := ownRow i
    rw [encodeUndoesDecode w i hd] at hw
    exact ⟨r, opcodeTable_filter_eq_singleton hr hw, hm⟩
  | error e =>
    obtain rfl := decode_error hd
    exact ⟨rfl, List.filter_eq_nil_iff.2 fun r hr hw => decode_of_row hr hw hd⟩

/-! ### Fixed words -/

/-- Settles O5: the decoder runs on each of the words. -/
theorem vectorWordsDecode : Obligations.VectorWordsDecode := by
  unfold Obligations.VectorWordsDecode
  decide

end Sys2Proof

/-! PROOFS. What an instruction that goes on can do, each kind of change once (spec/10_state.md R20 to R31,
spec/20_memory.md R36). -/

namespace Sys2Proof.Machine

/-! ### The kinds of change -/

/-- `t` is what instruction `i` may make of `s`, whatever the random byte: one kind of change, which lies within what
`Instr.changes` and `Instr.writesReg` list for `i`, or names the one instruction that makes it. -/
inductive Effect (i : Instr) (s : State) : State → Prop where
  | register (x : RegIx) (b : Byte) (hparts : [.v, .pc] ⊆ i.changes) (hreg : i.writesReg x = true) :
      Effect i s (s.setReg x b).advance
  | flagged (x : RegIx) (b : Byte) (c : Bool) (hparts : [.v, .pc] ⊆ i.changes) (hreg : i.writesReg x = true)
      (hflag : i.writesReg VF = true) : Effect i s (s.setWithFlag x b c).advance
  | random (x : RegIx) (b : Byte) (hparts : [.v, .pc, .draws] ⊆ i.changes) (hreg : i.writesReg x = true) :
      Effect i s { (s.setReg x b).advance with draws := s.draws + 1 }
  | skipped (c : Bool) (hparts : [.pc] ⊆ i.changes) : Effect i s (s.skipIf c)
  | jumped (a : Word) (hparts : [.pc] ⊆ i.changes) (ha : a.toNat ≤ 0x10FE) : Effect i s (s.jump a)
  | called (nnn : Addr12) (h : s.sp.val < 16) (hi : i = .call nnn) : Effect i s ((s.push h s.pc).jump (zext16 nnn))
  | returned (h : 0 < s.sp.val) (hi : i = .ret) : Effect i s (s.dropTop.jump (s.top h + 2))
  | index (a : Word) (hparts : [.i, .pc] ⊆ i.changes) : Effect i s { s with i := a }.advance
  | delay (b : Byte) (hparts : [.dt, .pc] ⊆ i.changes) : Effect i s { s with dt := b }.advance
  | sound (b : Byte) (hparts : [.st, .pc] ⊆ i.changes) : Effect i s { s with st := b }.advance
  | cleared (hparts : [.fb, .draw, .pc] ⊆ i.changes) : Effect i s { s with fb := clearedFb, draw := true }.advance
  | drawn (px py : Nat) (rows : List Byte) (hparts : [.v, .fb, .draw, .pc] ⊆ i.changes)
      (hflag : i.writesReg VF = true) : Effect i s (s.drawSprite px py rows).advance
  | waits (x : RegIx) (hi : i = .ldVxK x) : Effect i s { s with waitx := x, run := .waitingForKey }
  | stored (bytes : List Byte) (hparts : [.mem, .pc] ⊆ i.changes) (hrun : s.base + bytes.length ≤ 0x1000) :
      Effect i s (s.setBytes s.base bytes).advance
  | loaded (x : RegIx) (v : Vector Byte 16) (hparts : [.v, .pc] ⊆ i.changes)
      (hreg : ∀ j : RegIx, j ≤ x → i.writesReg j = true) (hv : ∀ j : RegIx, ¬j ≤ x → v[j] = s.v[j]) :
      Effect i s { s with v := v }.advance

theorem jumpOffset_toNat (s : State) (nnn : Addr12) : (jumpOffset s nnn).toNat = nnn.toNat + (s.reg 0).toNat := by
  have hnnn := nnn.isLt
  have hreg := (s.reg 0).isLt
  rw [jumpOffset, BitVec.toNat_add, zext16_toNat (by decide), zext16_toNat (by decide)]
  omega

/-- Every instruction that goes on makes one of these changes. -/
theorem effect_of_executeWith {r : Byte} {i : Instr} {s t : State} (h : executeWith r i s = .next t) :
    Effect i s t := by
  cases i with
  | ldImm x | addImm x | ldReg x | orReg x | andReg x | xorReg x | ldVxDt x =>
    cases h
    exact .register x _ (by simp [Instr.changes]) (by simp [Instr.writesReg])
  | addReg x | sub x | shr x | subn x | shl x =>
    cases h
    exact .flagged x _ _ (by simp [Instr.changes]) (by simp [Instr.writesReg]) (by simp [Instr.writesReg])
  | rnd x =>
    cases h
    exact .random x _ (by simp [Instr.changes]) (by simp [Instr.writesReg])
  | seImm | sneImm | seReg | sneReg | skp | sknp =>
    cases h
    exact .skipped _ (by simp [Instr.changes])
  | jp nnn =>
    cases h
    have := nnn.isLt
    exact .jumped _ (by simp [Instr.changes]) (by rw [zext16_toNat (by decide)]; omega)
  | jpV0 nnn =>
    cases h
    have := nnn.isLt
    have := (s.reg 0).isLt
    exact .jumped _ (by simp [Instr.changes]) (by rw [jumpOffset_toNat]; omega)
  | call nnn =>
    by_cases hsp : s.sp.val < 16
    · cases (execCall_lt hsp nnn).symm.trans h
      exact .called nnn hsp rfl
    · cases (execCall_full (by omega) nnn).symm.trans h
  | ret =>
    by_cases hsp : 0 < s.sp.val
    · cases (execRet_pos hsp).symm.trans h
      exact .returned hsp rfl
    · cases (execRet_empty (by omega)).symm.trans h
  | ldI | addIVx | ldFVx =>
    cases h
    exact .index _ (by simp [Instr.changes])
  | ldDtVx =>
    cases h
    exact .delay _ (by simp [Instr.changes])
  | ldStVx =>
    cases h
    exact .sound _ (by simp [Instr.changes])
  | cls =>
    cases h
    exact .cleared (by simp [Instr.changes])
  | drw x y n =>
    have h := (execDrw_eq x y n s).symm.trans h
    split at h <;> cases h
    exact .drawn _ _ _ (by simp [Instr.changes]) rfl
  | ldVxK x =>
    obtain ⟨k, -, hnext⟩ | ⟨-, hnext⟩ := execLdVxK_cases x s
    · cases hnext.symm.trans h
      exact .register x _ (by simp [Instr.changes]) (by simp [Instr.writesReg])
    · cases hnext.symm.trans h
      exact .waits x rfl
  | ldBVx x =>
    have h := (execLdBVx_eq x s).symm.trans h
    split at h <;> cases h
    exact .stored _ (by simp [Instr.changes]) (by rw [bcdDigits_length]; omega)
  | ldMemVx x =>
    have h := (execLdMemVx_eq x s).symm.trans h
    split at h <;> cases h
    exact .stored _ (by simp [Instr.changes]) (by rw [State.regsTo_length]; omega)
  | ldVxMem x =>
    have h := (execLdVxMem_eq x s).symm.trans h
    split at h
    · obtain rfl := Host.Outcome.next.inj h
      refine .loaded x _ (by simp [Instr.changes]) (by simp [Instr.writesReg]) fun j hj => ?_
      exact (s.reg_setRegsTo x _ j).trans (if_neg hj)
    · cases h

/-- An instruction without the cycle's byte is one with the free byte. -/
theorem exec_eq_executeWith (i : Instr) (s : State) : exec i s = executeWith (Config.freeByte s.draws) i s := by
  cases i <;> rfl

theorem effect_of_exec {i : Instr} {s t : State} (h : exec i s = .next t) : Effect i s t :=
  effect_of_executeWith ((exec_eq_executeWith i s).symm.trans h)

/-! ### What each kind of change leaves alone -/

/-- `s` with the listed parts taken from `t`; FONT stays, since nothing writes it. -/
def State.takeParts (s : State) (ps : List Piece) (t : State) : State where
  v     := if .v ∈ ps then t.v else s.v
  i     := if .i ∈ ps then t.i else s.i
  pc    := if .pc ∈ ps then t.pc else s.pc
  stack := if .stack ∈ ps then t.stack else s.stack
  sp    := if .sp ∈ ps then t.sp else s.sp
  dt    := if .dt ∈ ps then t.dt else s.dt
  st    := if .st ∈ ps then t.st else s.st
  mem   := if .mem ∈ ps then t.mem else s.mem
  fb    := if .fb ∈ ps then t.fb else s.fb
  key   := if .key ∈ ps then t.key else s.key
  draw  := if .draw ∈ ps then t.draw else s.draw
  run   := if .run ∈ ps then t.run else s.run
  waitx := if .waitx ∈ ps then t.waitx else s.waitx
  font  := s.font
  draws := if .draws ∈ ps then t.draws else s.draws

theorem State.takeParts_onlyChanges (s : State) (ps : List Piece) (t : State) :
    OnlyChanges ps s (s.takeParts ps t) := by
  intro p hp
  cases p with
  | font => rfl
  | v => exact fun j => congrArg (·[j]) (if_neg hp)
  | stack => exact fun j => congrArg (·[j]) (if_neg hp)
  | key => exact fun j => congrArg (·[j]) (if_neg hp)
  | mem => exact fun a => congrArg (Memory.get s.font · a) (if_neg hp)
  | fb => exact fun x _ y _ => congrArg (pixel · x y) (if_neg hp)
  | i | pc | sp | dt | st | draw | run | waitx | draws => exact if_neg hp

/-- A state that is `s` but for the listed parts. -/
theorem OnlyChanges.of_takeParts {ps : List Piece} {s t : State} (h : s.takeParts ps t = t) : OnlyChanges ps s t :=
  h ▸ s.takeParts_onlyChanges ps t

theorem OnlyChanges.mono {ps qs : List Piece} {s t : State} (h : OnlyChanges ps s t) (hsub : ps ⊆ qs) :
    OnlyChanges qs s t := fun p hp => h p fun hps => hp (hsub hps)

/-- Each kind of change touches only the parts listed for the instruction. -/
theorem Effect.onlyChanges {i : Instr} {s t : State} (h : Effect i s t) : OnlyChanges i.changes s t := by
  cases h with
  | register _ _ hparts | random _ _ hparts | loaded _ _ hparts => exact OnlyChanges.mono (.of_takeParts rfl) hparts
  | flagged _ _ _ hparts | drawn _ _ _ hparts => exact OnlyChanges.mono (.of_takeParts rfl) hparts
  | index _ hparts | delay _ hparts | sound _ hparts => exact OnlyChanges.mono (.of_takeParts rfl) hparts
  | jumped _ hparts | stored _ hparts | cleared hparts => exact OnlyChanges.mono (.of_takeParts rfl) hparts
  | skipped c hparts => exact (s.skipIf_onlyChanges_pc c).mono hparts
  | called _ _ hi | returned _ hi | waits _ hi => exact hi ▸ .of_takeParts rfl

/-- Settles O45: an instruction that goes on makes one of the kinds of change, within its own list. -/
theorem instructionsChangeOnlyTheirParts : Obligations.InstructionsChangeOnlyTheirParts := fun _ _ _ h =>
  (effect_of_exec h).onlyChanges

/-! ### Registers -/

/-- A register that is not listed is none of those that the kind of change writes. -/
theorem Effect.reg_eq {i : Instr} {s t : State} (h : Effect i s t) {j : RegIx} (hj : i.writesReg j = false) :
    t.reg j = s.reg j := by
  have hne {x : RegIx} (hx : i.writesReg x = true) : j ≠ x := fun e => by simp [e, hx] at hj
  cases h with
  | register x b _ hreg | random x b _ hreg => exact (s.reg_setReg x b j).trans (if_neg (hne hreg))
  | flagged x b c _ hreg hflag =>
    exact (s.reg_setWithFlag x b c j).trans ((if_neg (hne hflag)).trans (if_neg (hne hreg)))
  | drawn px py rows _ hflag => exact (s.reg_setReg VF _ j).trans (if_neg (hne hflag))
  | loaded x v _ hreg hv => exact hv j fun hle => hne (hreg j hle) rfl
  | skipped c => cases c <;> rfl
  | jumped | called | returned | index | delay | sound | cleared | waits | stored => rfl

end Sys2Proof.Machine

/-! PROOFS. What stops an instruction and a cycle (spec/60_exceptions.md R123, spec/40_cycle.md R67). -/

namespace Sys2Proof.Machine

/-! ### The faults of an instruction -/

/-- Instruction `i` raises `f` in `s`: its run of bytes from I leaves MEM, or it is a CALL on a full stack, or a RET on
an empty one. -/
def InstrFaults (i : Instr) (s : State) (f : Fault) : Prop :=
  (0 < i.bytesAtI ∧ 0x1000 < s.base + i.bytesAtI ∧ f = .outOfRange (max s.base 0x1000)) ∨
  (∃ nnn : Addr12, i = .call nnn ∧ s.sp.val = 16 ∧ f = .stackOverflow s.pc) ∨
  (i = .ret ∧ s.sp.val = 0 ∧ f = .stackUnderflow s.pc)

/-- The answers of an instruction are what the listed causes say: no refusal, and a fault for a cause only. -/
def StopsAsListed (i : Instr) (s : State) (a : Result) : Prop :=
  (∀ e : Refusal, a ≠ .refused e) ∧ ∀ f : Fault, a = .fault f ↔ InstrFaults i s f

theorem instrFaults_iff_run {i : Instr} (hcall : ∀ nnn : Addr12, i ≠ .call nnn) (hret : i ≠ .ret) (s : State)
    (f : Fault) :
    InstrFaults i s f ↔ ¬(i.bytesAtI = 0 ∨ s.base + i.bytesAtI ≤ 0x1000) ∧ f = .outOfRange (max s.base 0x1000) := by
  simp only [InstrFaults, hcall, hret, false_and, exists_false, or_false, ← and_assoc]
  exact and_congr_left fun _ => by omega

/-- An instruction that goes on exactly when its run of bytes from I is inside MEM. -/
theorem stopsAsListed_of_checked {i : Instr} {s t : State} {a : Result} {p : Prop} [Decidable p]
    (hcall : ∀ nnn : Addr12, i ≠ .call nnn) (hret : i ≠ .ret)
    (ha : a = if p then .next t else .fault (.outOfRange (max s.base 0x1000)))
    (hp : p ↔ i.bytesAtI = 0 ∨ s.base + i.bytesAtI ≤ 0x1000) : StopsAsListed i s a := by
  subst ha
  simp only [StopsAsListed, instrFaults_iff_run hcall hret, ← hp]
  by_cases h : p <;> simp [h, eq_comm]

/-- An instruction that always goes on. -/
theorem stopsAsListed_of_next {i : Instr} {s t : State} {a : Result} (hcall : ∀ nnn : Addr12, i ≠ .call nnn)
    (hret : i ≠ .ret) (hn : i.bytesAtI = 0) (ha : a = .next t) : StopsAsListed i s a := by
  subst ha
  simp [StopsAsListed, instrFaults_iff_run hcall hret, hn]

theorem call_stopsAsListed (nnn : Addr12) (s : State) : StopsAsListed (.call nnn) s (execCall nnn s) := by
  by_cases hsp : s.sp.val < 16
  · rw [execCall_lt hsp]
    simp [StopsAsListed, InstrFaults, Instr.bytesAtI, hsp.ne]
  · have hfull : s.sp.val = 16 := by omega
    rw [execCall_full hfull]
    simp [StopsAsListed, InstrFaults, Instr.bytesAtI, hfull, eq_comm]

theorem ret_stopsAsListed (s : State) : StopsAsListed .ret s (execRet s) := by
  by_cases hsp : 0 < s.sp.val
  · rw [execRet_pos hsp]
    simp [StopsAsListed, InstrFaults, Instr.bytesAtI, hsp.ne']
  · have hempty : s.sp.val = 0 := by omega
    rw [execRet_empty hempty]
    simp [StopsAsListed, InstrFaults, Instr.bytesAtI, hempty, eq_comm]

theorem executeWith_stopsAsListed (r : Byte) (i : Instr) (s : State) : StopsAsListed i s (executeWith r i s) := by
  cases i with
  | call nnn => exact call_stopsAsListed nnn s
  | ret => exact ret_stopsAsListed s
  | drw x y n => exact stopsAsListed_of_checked nofun nofun (execDrw_eq x y n s) Iff.rfl
  | ldBVx x =>
    exact stopsAsListed_of_checked nofun nofun (execLdBVx_eq x s) (by simp only [Instr.bytesAtI]; omega)
  | ldMemVx x =>
    exact stopsAsListed_of_checked nofun nofun (execLdMemVx_eq x s) (by simp only [Instr.bytesAtI]; omega)
  | ldVxMem x =>
    exact stopsAsListed_of_checked nofun nofun (execLdVxMem_eq x s) (by simp only [Instr.bytesAtI]; omega)
  | ldVxK x =>
    obtain ⟨k, -, h⟩ | ⟨-, h⟩ := execLdVxK_cases x s
    · exact stopsAsListed_of_next nofun nofun rfl h
    · exact stopsAsListed_of_next nofun nofun rfl h
  | _ => exact stopsAsListed_of_next nofun nofun rfl rfl

/-! ### The faults of a cycle -/

/-- The cycle of `s` raises `f`: a running CPU gets no instruction, or one that raises it. The random byte is no part of
it. -/
def CycleFaults (s : State) (f : Fault) : Prop :=
  s.run = .running ∧ (fetchInstr s = .error f ∨ ∃ i, fetchInstr s = .ok i ∧ InstrFaults i s f)

/-- A poll never stops. -/
theorem waitingCycle_next (s : State) : ∃ t, waitingCycle s = .next t := by
  obtain ⟨k, -, h⟩ | ⟨-, h⟩ := waitingCycle_cases s
  · exact ⟨_, h⟩
  · exact ⟨_, h⟩

theorem cycle_fault_iff (r : Byte) (s : State) (f : Fault) : cycle r s = .fault f ↔ CycleFaults s f := by
  cases hrun : s.run with
  | running =>
    simp only [cycle_running hrun, orRaise_fault, (executeWith_stopsAsListed r _ s).2, CycleFaults, hrun, true_and]
  | waitingForKey =>
    obtain ⟨t, ht⟩ := waitingCycle_next s
    simp [cycle_waiting hrun, ht, CycleFaults, hrun]

theorem cycle_ne_refused (r : Byte) (s : State) (e : Refusal) : cycle r s ≠ .refused e := by
  cases hrun : s.run with
  | running =>
    rw [cycle_running hrun]
    cases fetchInstr s with
    | error f => exact nofun
    | ok i => exact (executeWith_stopsAsListed r i s).1 e
  | waitingForKey =>
    obtain ⟨t, ht⟩ := waitingCycle_next s
    rw [cycle_waiting hrun, ht]
    exact nofun

/-- Settles O11: the step gives every instruction the free byte, which only CXKK takes. -/
theorem stepIsCycleWithTheFreeByte : Obligations.StepIsCycleWithTheFreeByte := by
  intro s
  cases hrun : s.run with
  | running => rw [step_running hrun, cycle_running hrun]; simp only [exec_eq_executeWith]
  | waitingForKey => rw [step_waiting hrun, cycle_waiting hrun]

/-! ### The causes, as the spec lists them -/

/-- What keeps a fetch from giving an instruction: the fetch check, or a word that is in no row of the table. -/
theorem fetchInstr_error {s : State} {f : Fault} (h : fetchInstr s = .error f) :
    (∃ a : Nat, f = .outOfRange a ∧ 0xFFF < a ∧ fetchWord s = .error (.outOfRange a)) ∨
      ∃ w : Word, f = .unknownOpcode w ∧ fetchWord s = .ok w ∧ wellFormedWord w = false := by
  by_cases hpc : s.pc.toNat < 0xFFF
  · have hw := fetchWord_inside hpc
    cases hd : decode (s.wordAt s.pc.toNat) with
    | ok i => rw [fetchInstr_of_decode_ok hw hd] at h; cases h
    | error e =>
      obtain rfl := Except.error.inj ((fetchInstr_of_decode_error hw hd).symm.trans h)
      obtain rfl := decode_error hd
      refine .inr ⟨_, rfl, hw, ?_⟩
      exact List.any_eq_false.2 fun r hr hrow => decode_of_row hr hrow hd
  · have hw : fetchWord s = .error (.outOfRange (max s.pc.toNat 0x1000)) := by rw [fetchWord_eq, if_neg hpc]
    obtain rfl := Except.error.inj ((fetchInstr_of_fetchWord_error hw).symm.trans h)
    exact .inl ⟨_, rfl, by omega, hw⟩

theorem lowestInvalid_max {base n : Nat} (hn : 0 < n) (h : 0x1000 < base + n) :
    LowestInvalid base n (max base 0x1000) :=
  ⟨by omega, by omega, by omega, fun _ _ _ => by omega⟩

/-- Settles O13: a step is a cycle, and a cycle's fault is the fetch's or the instruction's. -/
theorem stepNeverRefusesAndFaultsForListedCauses : Obligations.StepNeverRefusesAndFaultsForListedCauses := by
  refine ⟨fun s e => ?refusal, fun s f hf => ?fault⟩
  case refusal => exact stepIsCycleWithTheFreeByte s ▸ cycle_ne_refused _ s e
  case fault =>
    rw [stepIsCycleWithTheFreeByte, cycle_fault_iff] at hf
    obtain ⟨hrun, hfetch | ⟨i, hi, ⟨hn, hout, rfl⟩ | ⟨nnn, rfl, hsp, rfl⟩ | ⟨rfl, hsp, rfl⟩⟩⟩ := hf
    · refine ⟨hrun, ?_⟩
      obtain h | h := fetchInstr_error hfetch
      · exact .inl h
      · exact .inr (.inr (.inl h))
    · exact ⟨hrun, .inr (.inl ⟨_, i, rfl, hi, lowestInvalid_max hn hout⟩)⟩
    · exact ⟨hrun, .inr (.inr (.inr (.inl ⟨rfl, hsp, nnn, hi⟩)))⟩
    · exact ⟨hrun, .inr (.inr (.inr (.inr ⟨rfl, hsp, hi⟩)))⟩

end Sys2Proof.Machine

/-! PROOFS. The cycle: what it runs, what it polls, and what it ignores (spec/40_cycle.md R65 to R69). -/

namespace Sys2Proof.Machine

/-! ### A Running cycle -/

/-- Settles O6: the two bytes at PC are the word that fetch reads. -/
theorem stepRunsDecodedInstruction : Obligations.StepRunsDecodedInstruction := by
  intro s w i hrun hpc hw hi
  have hword : s.wordAt s.pc.toNat = w := BitVec.eq_of_toNat_eq ((s.wordAt_toNat _).trans hw.symm)
  have hfetch : fetchInstr s = .ok i := fetchInstr_ok.2 ⟨by omega, hword ▸ hi⟩
  rw [step_running hrun, hfetch, orRaise]

/-- Two random bytes make a difference to CXKK alone. -/
theorem executeWith_congr {i : Instr} (hi : ∀ (x : RegIx) (kk : Byte), i ≠ .rnd x kk) (r r' : Byte) (s : State) :
    executeWith r i s = executeWith r' i s := by
  cases i with
  | rnd x kk => exact absurd rfl (hi x kk)
  | _ => rfl

/-- Settles O12: fetch takes no random byte, a poll takes none, and of the instructions only CXKK does. -/
theorem onlyRndReadsTheRandomByte : Obligations.OnlyRndReadsTheRandomByte := by
  intro s r r' hrnd
  cases hrun : s.run with
  | running =>
    rw [cycle_running hrun, cycle_running hrun]
    cases hi : fetchInstr s with
    | error f => rfl
    | ok i => exact executeWith_congr (fun x kk e => hrnd x kk (hi.trans (congrArg _ e))) r r' s
  | waitingForKey => rw [cycle_waiting hrun, cycle_waiting hrun]

/-! ### FX0A and the poll, with a key down and with every key up -/

theorem exec_ldVxK_pressed {s : State} {k : RegIx} (h : s.anyDown = some k) (x : RegIx) :
    exec (.ldVxK x) s = .next (s.setReg x (keyByte k)).advance := by
  simp only [exec, execLdVxK, h]

theorem exec_ldVxK_allUp {s : State} (h : s.anyDown = none) (x : RegIx) :
    exec (.ldVxK x) s = .next { s with waitx := x, run := .waitingForKey } := by
  simp only [exec, execLdVxK, h]

theorem waitingCycle_pressed {s : State} {k : RegIx} (h : s.anyDown = some k) :
    waitingCycle s = .next { (s.setReg s.waitx (keyByte k)).advance with run := .running } := by
  simp only [waitingCycle, h]

theorem waitingCycle_allUp {s : State} (h : s.anyDown = none) : waitingCycle s = .next s := by
  simp only [waitingCycle, h]

/-- Settles O34: AnyDown finds the lowest pressed key, and its number fits a byte. -/
theorem waitForKey : Obligations.WaitForKey := by
  intro x s
  refine ⟨fun k hk hlow => ?pressed, fun hup => ?allUp⟩
  case pressed =>
    obtain ⟨hreg, hframe⟩ := s.setReg_advance_spec x (keyByte k)
    exact ⟨_, exec_ldVxK_pressed ((s.anyDown_eq_some k).2 ⟨hk, hlow⟩) x, by rw [hreg, keyByte_toNat], hframe⟩
  case allUp => exact ⟨_, exec_ldVxK_allUp (s.anyDown_eq_none.2 hup) x, rfl, rfl, .of_takeParts rfl⟩

/-- Settles O9: a waiting step is a poll, and the poll writes V[WAITX] as FX0A writes Vx. -/
theorem waitingCyclePollsKeys : Obligations.WaitingCyclePollsKeys := by
  intro s hrun
  rw [step_waiting hrun]
  refine ⟨fun hup => waitingCycle_allUp (s.anyDown_eq_none.2 hup), fun k hk hlow => ?pressed⟩
  case pressed =>
    obtain ⟨hreg, hpc, hregs, -⟩ := s.setReg_advance_spec s.waitx (keyByte k)
    have hkey : ((s.setReg s.waitx (keyByte k)).advance.reg s.waitx).toNat = k.val := by rw [hreg, keyByte_toNat]
    exact ⟨_, waitingCycle_pressed ((s.anyDown_eq_some k).2 ⟨hk, hlow⟩), hkey, hpc, rfl, hregs, .of_takeParts rfl⟩

/-- Settles O10: fetching FX0A again does what the poll does, key by key, and with every key up it starts the same
wait. -/
theorem waitingEqualsRefetching : Obligations.WaitingEqualsRefetching := by
  intro s hrun hfetch
  have hfetch' : fetchInstr { s with run := .running } = .ok (.ldVxK s.waitx) :=
    (fetchInstr_congr rfl rfl rfl).trans hfetch
  rw [step_waiting hrun, step_running rfl, hfetch', orRaise]
  cases hkey : s.anyDown with
  | some k => rw [waitingCycle_pressed hkey, exec_ldVxK_pressed (s := { s with run := .running }) hkey]; rfl
  | none => rw [waitingCycle_allUp hkey, exec_ldVxK_allUp (s := { s with run := .running }) hkey, ← hrun]

/-! ### Cycles that change nothing -/

/-- A state that every cycle leaves as it is stays for any number of cycles. -/
theorem hostRun_cycles_of_fixed {s : State} (h : ∀ r : Byte, cycle r s = .next s) (rs : List Byte) :
    hostRun s (rs.map .cycle) = .ok (s, rs.map fun _ => .ok) := by
  induction rs with
  | nil => rfl
  | cons r rs ih =>
    have hcmd : command (.cycle r) s = .next (s, .ok) := by rw [command, h, withOk]
    rw [List.map_cons, hostRun_cons_next hcmd, ih]
    rfl

/-- Settles O35: the poll of a keypad with every key up answers the same state. -/
theorem waitHangsWithoutAKey : Obligations.WaitHangsWithoutAKey := fun s rs hrun hup =>
  hostRun_cycles_of_fixed (fun r => (cycle_waiting hrun r).trans (waitingCycle_allUp (s.anyDown_eq_none.2 hup))) rs

theorem State.jump_self (s : State) : s.jump s.pc = s := rfl

/-- Settles O51: the jump goes to PC itself. -/
theorem selfJumpIsTheEnd : Obligations.SelfJumpIsTheEnd := by
  intro s rs hrun ⟨nnn, hfetch, htarget⟩
  have hpc : zext16 nnn = s.pc := BitVec.eq_of_toNat_eq ((zext16_toNat (by decide) nnn).trans htarget)
  refine hostRun_cycles_of_fixed (fun r => ?_) rs
  calc cycle r s = executeWith r (.jp nnn) s := cycle_of_fetchInstr_ok hrun r hfetch
    _ = .next (s.jump (zext16 nnn)) := exec_jp nnn s
    _ = .next s := by rw [hpc, s.jump_self]

end Sys2Proof.Machine

/-! PROOFS. CXKK and the random byte (spec/41_immediate.md R77). -/

namespace Sys2Proof.Machine

/-- CXKK with any random byte: the masked byte, the count of bytes taken, PC, and nothing else. -/
theorem rndWith_spec (r : Byte) (x : RegIx) (kk : Byte) (s : State) :
    ∃ t : State, rndWith r x kk s = .next t ∧ t.reg x = r &&& kk ∧ t.draws = s.draws + 1 ∧ PcMoved 2 s t ∧
      KeepsRegsBut [x] s t ∧ OnlyChanges [.v, .pc, .draws] s t := by
  obtain ⟨hreg, hpc, hregs, -⟩ := s.setReg_advance_spec x (r &&& kk)
  exact ⟨_, rfl, hreg, rfl, hpc, hregs, .of_takeParts rfl⟩

theorem exec_rnd (x : RegIx) (kk : Byte) (s : State) :
    exec (.rnd x kk) s = rndWith (Config.freeByte s.draws) x kk s := rfl

/-- Settles O15: the mask acts on each bit of the free byte. -/
theorem randomByteIsMasked : Obligations.RandomByteIsMasked := by
  intro x kk s
  obtain ⟨t, hnext, hreg, hdraws, hframe⟩ := rndWith_spec (Config.freeByte s.draws) x kk s
  exact ⟨t, (exec_rnd x kk s).trans hnext, fun b _ => by rw [hreg, BitVec.getLsbD_and], hdraws, hframe⟩

/-- A masked byte has no bit outside the mask. -/
theorem masked_and_not (r kk : Byte) : r &&& kk &&& ~~~kk = 0 := by
  apply BitVec.eq_of_getLsbD_eq
  intro b hb
  simp [hb]

/-- A byte with no bit outside the mask is its own masked byte. -/
theorem masked_eq_self {v kk : Byte} (h : v &&& ~~~kk = 0) : v &&& kk = v := by
  apply BitVec.eq_of_getLsbD_eq
  intro b hb
  have hbit : (v &&& ~~~kk).getLsbD b = false := by rw [h]; exact BitVec.getLsbD_zero
  simpa [hb] using hbit

/-- Settles O16: a masked value is reached with itself as the random byte, and every random byte gives a masked one. -/
theorem randomAdmitsEveryMaskedValue : Obligations.RandomAdmitsEveryMaskedValue := by
  intro x kk s hrun hfetch
  have hcycle (r : Byte) : cycle r s = rndWith r x kk s := cycle_of_fetchInstr_ok hrun r hfetch
  refine ⟨fun v hv => ?reached, fun r => ?masked⟩
  case reached =>
    obtain ⟨t, hnext, hreg, -⟩ := rndWith_spec v x kk s
    exact ⟨v, t, (hcycle v).trans hnext, hreg.trans (masked_eq_self hv)⟩
  case masked =>
    obtain ⟨t, hnext, hreg, -, hpc, hregs, hparts⟩ := rndWith_spec r x kk s
    exact ⟨t, (hcycle r).trans hnext, by rw [hreg, masked_and_not], hregs, hpc, hparts⟩

end Sys2Proof.Machine

/-! PROOFS. The jump with offset, the call and the return (spec/42_control_flow.md R78 to R82, R87). -/

namespace Sys2Proof.Machine

theorem exec_jpV0 (nnn : Addr12) (s : State) : exec (.jpV0 nnn) s = .next (s.jump (jumpOffset s nnn)) := rfl

/-- Settles O18: the sum of a 12-bit and an 8-bit number fits a word. -/
theorem jumpWithOffsetIsNotMasked : Obligations.JumpWithOffsetIsNotMasked := fun nnn s =>
  ⟨_, exec_jpV0 nnn s, jumpOffset_toNat s nnn, s.jump_onlyChanges_pc _⟩

theorem exec_call_lt {s : State} (h : s.sp.val < 16) (nnn : Addr12) :
    exec (.call nnn) s = .next ((s.push h s.pc).jump (zext16 nnn)) := execCall_lt h nnn

theorem exec_call_full {s : State} (h : s.sp.val = 16) (nnn : Addr12) :
    exec (.call nnn) s = .fault (.stackOverflow s.pc) := execCall_full h nnn

theorem exec_ret_pos {s : State} (h : 0 < s.sp.val) : exec .ret s = .next (s.dropTop.jump (s.top h + 2)) :=
  execRet_pos h

theorem exec_ret_empty {s : State} (h : s.sp.val = 0) : exec .ret s = .fault (.stackUnderflow s.pc) := execRet_empty h

/-- Settles O19: with SP below 16 the call is a push of PC and a jump. -/
theorem callPushesItsOwnAddress : Obligations.CallPushesItsOwnAddress := by
  intro nnn s
  refine ⟨fun j hj => ?pushed, fun hfull => exec_call_full hfull nnn⟩
  case pushed =>
    have hsp : s.sp.val < 16 := by omega
    have hslot : (s.push hsp s.pc).stack[j] = s.pc := (s.push_slot hsp s.pc j).trans (if_pos hj.symm)
    have hother (k : Fin 16) (hk : k ≠ j) : (s.push hsp s.pc).stack[k] = s.stack[k] :=
      (s.push_slot hsp s.pc k).trans (if_neg fun e => hk (Fin.ext (e.trans hj)))
    exact ⟨_, exec_call_lt hsp nnn, hslot, congrArg (· + 1) hj, zext16_toNat (by decide) nnn, hother,
      .of_takeParts rfl⟩

theorem State.top_eq_slot {s : State} {j : Fin 16} (hj : s.sp.val = j.val + 1) (h : 0 < s.sp.val) :
    s.top h = s.stack[j] := by
  simp only [State.top, hj, Nat.add_sub_cancel, Fin.getElem_fin]

/-- Settles O20: with SP above 0 the return drops the top slot and jumps past what it holds. -/
theorem returnGoesPastTheCall : Obligations.ReturnGoesPastTheCall := by
  intro s
  refine ⟨fun j hj => ?popped, exec_ret_empty⟩
  case popped =>
    have hsp : 0 < s.sp.val := by omega
    have hpc : (s.top hsp + 2).toNat = (s.stack[j].toNat + 2) % 65536 := by
      rw [State.top_eq_slot hj, BitVec.toNat_add]
      rfl
    have hdropped : s.dropTop.sp.val = j.val := Nat.sub_eq_of_eq_add hj
    exact ⟨_, exec_ret_pos hsp, hpc, hdropped, .of_takeParts rfl⟩

/-- Settles O21: the return pops the slot that the call pushed, in which the call left its own address. -/
theorem callThenReturn : Obligations.CallThenReturn := by
  intro nnn s t u hcall hstack hsp
  by_cases hlt : s.sp.val < 16
  · obtain rfl := Host.Outcome.next.inj ((exec_call_lt hlt nnn).symm.trans hcall)
    have hpushed : u.stack = (s.push hlt s.pc).stack := hstack
    have hu : u.sp.val = s.sp.val + 1 := congrArg Fin.val hsp
    obtain ⟨w, hnext, hpc, hw, -⟩ := (returnGoesPastTheCall u).1 ⟨s.sp.val, hlt⟩ hu
    have hslot : u.stack[(⟨s.sp.val, hlt⟩ : Fin 16)] = s.pc := by
      rw [hpushed, State.push_slot, if_pos rfl]
    exact ⟨w, hnext, by rw [PcMoved, hpc, hslot], Fin.ext hw⟩
  · cases (exec_call_full (by omega) nnn).symm.trans hcall

end Sys2Proof.Machine

/-! PROOFS. The flag writers of the ALU group (spec/43_alu.md R93 to R97). -/

namespace Sys2Proof.Machine

theorem flagByte_toNat (c : Bool) : (flagByte c).toNat = if c then 1 else 0 := by cases c <;> rfl

theorem flagByte_eq_zero_or_one (c : Bool) : flagByte c = 0 ∨ flagByte c = 1 := by cases c <;> simp [flagByte]

theorem State.setWithFlag_keepsRegsBut (s : State) (x : RegIx) (b : Byte) (c : Bool) :
    KeepsRegsBut [x, VF] s (s.setWithFlag x b c) := by
  intro j hj
  simp only [List.mem_cons, List.not_mem_nil, or_false, not_or] at hj
  rw [State.reg_setWithFlag, if_neg hj.2, if_neg hj.1]

/-- Every instruction that writes a result to Vx and then a flag to VF leaves the result in Vx unless that is VF, the
flag in VF, moves on and changes nothing else. -/
theorem exec_flagged_spec {i : Instr} {x : RegIx} {s : State} {b : Byte} {c : Bool} {result : Byte → Prop} {flag : Nat}
    (hexec : exec i s = .next (s.setWithFlag x b c).advance) (hresult : result b) (hflag : (flagByte c).toNat = flag) :
    ∃ t : State, exec i s = .next t ∧ (x ≠ VF → result (t.reg x)) ∧ (t.reg VF).toNat = flag ∧
      PcMoved 2 s t ∧ KeepsRegsBut [x, VF] s t ∧ OnlyChanges [.v, .pc] s t := by
  refine ⟨_, hexec, fun hx => ?result, ?flag, (s.setWithFlag x b c).advance_toNat, s.setWithFlag_keepsRegsBut x b c,
    .of_takeParts rfl⟩
  case result => rwa [State.reg_advance, State.reg_setWithFlag, if_neg hx, if_pos rfl]
  case flag => rwa [State.reg_advance, State.reg_setWithFlag, if_pos rfl]

theorem exec_addReg (x y : RegIx) (s : State) : exec (.addReg x y) s =
    .next (s.setWithFlag x (s.reg x + s.reg y) (carryOut (s.reg x) (s.reg y))).advance := rfl

theorem exec_sub (x y : RegIx) (s : State) : exec (.sub x y) s =
    .next (s.setWithFlag x (s.reg x - s.reg y) (notBorrow (s.reg x) (s.reg y))).advance := rfl

theorem exec_shr (x y : RegIx) (s : State) : exec (.shr x y) s =
    .next (s.setWithFlag x (s.reg y >>> 1) (shiftedOutRight (s.reg y))).advance := rfl

theorem exec_subn (x y : RegIx) (s : State) : exec (.subn x y) s =
    .next (s.setWithFlag x (s.reg y - s.reg x) (notBorrow (s.reg y) (s.reg x))).advance := rfl

theorem exec_shl (x y : RegIx) (s : State) : exec (.shl x y) s =
    .next (s.setWithFlag x (s.reg y <<< 1) (shiftedOutLeft (s.reg y))).advance := rfl

/-! ### Results and flags as numbers -/

theorem flagByte_carryOut (a b : Byte) :
    (flagByte (carryOut a b)).toNat = if a.toNat + b.toNat > 255 then 1 else 0 := by
  simp [flagByte_toNat, carryOut]

theorem flagByte_notBorrow (a b : Byte) : (flagByte (notBorrow a b)).toNat = if a.toNat > b.toNat then 1 else 0 := by
  simp [flagByte_toNat, notBorrow]

/-- A bit as a flag is its quotient's remainder. -/
theorem flagByte_getLsbD (b : Byte) (k : Nat) : (flagByte (b.getLsbD k)).toNat = b.toNat / 2 ^ k % 2 := by
  rw [flagByte_toNat, BitVec.getLsbD, Nat.testBit_eq_decide_div_mod_eq]
  have := Nat.mod_two_eq_zero_or_one (b.toNat / 2 ^ k)
  split <;> simp_all

theorem flagByte_shiftedOutRight (b : Byte) : (flagByte (shiftedOutRight b)).toNat = b.toNat % 2 := by
  rw [shiftedOutRight, flagByte_getLsbD, Nat.pow_zero, Nat.div_one]

theorem flagByte_shiftedOutLeft (b : Byte) : (flagByte (shiftedOutLeft b)).toNat = b.toNat / 128 := by
  have hb := b.isLt
  rw [shiftedOutLeft, flagByte_getLsbD]
  omega

/-- The difference modulo 256, as an integer. -/
theorem byte_sub_toNat (a b : Byte) : ((a - b).toNat : Int) = ((a.toNat : Int) - b.toNat) % 256 := by
  have ha := a.isLt
  have hb := b.isLt
  rw [BitVec.toNat_sub]
  omega

/-- Settles O24: the carry is what the sum modulo 256 drops. -/
theorem addSetsCarry : Obligations.AddSetsCarry := fun x y s =>
  exec_flagged_spec (result := fun r => r.toNat = ((s.reg x).toNat + (s.reg y).toNat) % 256) (exec_addReg x y s)
    (BitVec.toNat_add _ _) (flagByte_carryOut _ _)

/-- Settles O25: the two forms differ in the order of their operands alone. -/
theorem subtractSetsNotBorrow : Obligations.SubtractSetsNotBorrow := fun x y s =>
  ⟨exec_flagged_spec (result := fun r => (r.toNat : Int) = (((s.reg x).toNat : Int) - (s.reg y).toNat) % 256)
      (exec_sub x y s) (byte_sub_toNat _ _) (flagByte_notBorrow _ _),
    exec_flagged_spec (result := fun r => (r.toNat : Int) = (((s.reg y).toNat : Int) - (s.reg x).toNat) % 256)
      (exec_subn x y s) (byte_sub_toNat _ _) (flagByte_notBorrow _ _)⟩

/-- Settles O26: a shift by one halves or doubles, and the bit shifted out is the remainder or the overflow. -/
theorem shiftsTakeTheirSourceFromVy : Obligations.ShiftsTakeTheirSourceFromVy := fun x y s =>
  ⟨exec_flagged_spec (result := fun r => r.toNat = (s.reg y).toNat / 2) (exec_shr x y s)
      (BitVec.toNat_ushiftRight _ _) (flagByte_shiftedOutRight _),
    exec_flagged_spec (result := fun r => r.toNat = (s.reg y).toNat * 2 % 256) (exec_shl x y s)
      (by rw [BitVec.toNat_shiftLeft, Nat.shiftLeft_eq]) (flagByte_shiftedOutLeft _)⟩

end Sys2Proof.Machine

/-! PROOFS. Graphics: the clear and the sprite (spec/44_graphics.md R103, R104, R106). -/

namespace Sys2Proof.Machine

theorem exec_cls (s : State) : exec .cls s = .next { s with fb := clearedFb, draw := true }.advance := rfl

/-- Settles O29: the clear writes every cell and DRAW, whatever they were. -/
theorem clearScreenClearsEveryCell : Obligations.ClearScreenClearsEveryCell := fun s =>
  ⟨_, exec_cls s, fun x _ y _ => pixel_cleared x y, rfl, State.advance_toNat _,
    .of_takeParts rfl⟩

/-! ### A sprite drawn from the rows at I -/

/-- The state after a sprite of `n` rows at I is drawn at the coordinates that Vx and Vy hold. -/
def State.drawnAtI (s : State) (x y : RegIx) (n : RowCount) : State :=
  s.drawSprite (s.reg x).toNat (s.reg y).toNat ((List.range n.val).map fun k => s.byte (s.base + k))

/-- The cell (cx, cy) is plotted by `DRW Vx, Vy, n`. -/
def State.Plots (s : State) (x y : RegIx) (n : RowCount) (cx cy : Nat) : Prop :=
  SpritePlots s s.base n.val (s.reg x).toNat (s.reg y).toNat cx cy

theorem exec_drw_inside {s : State} {n : RowCount} (h : n.val = 0 ∨ s.base + n.val ≤ 0x1000) (x y : RegIx) :
    exec (.drw x y n) s = .next (s.drawnAtI x y n).advance := (execDrw_eq x y n s).trans (if_pos h)

theorem exec_drw_outside {s : State} {n : RowCount} (h : ¬(n.val = 0 ∨ s.base + n.val ≤ 0x1000)) (x y : RegIx) :
    exec (.drw x y n) s = .fault (.outOfRange (max s.base 0x1000)) := (execDrw_eq x y n s).trans (if_neg h)

section
variable (s : State) (x y : RegIx) (n : RowCount)

theorem State.drawnAtI_pixel_plotted {cx cy : Nat} (h : s.Plots x y n cx cy) :
    pixel (s.drawnAtI x y n).fb cx cy = !pixel s.fb cx cy := by
  rw [State.drawnAtI, State.drawSprite_fb, plot_pixel (spriteCells_nodup ..),
    decide_eq_true ((mem_spriteCells ..).2 h), Bool.xor_true]

theorem State.drawnAtI_pixel_other {cx cy : Nat} (h : ¬s.Plots x y n cx cy) :
    pixel (s.drawnAtI x y n).fb cx cy = pixel s.fb cx cy := by
  rw [State.drawnAtI, State.drawSprite_fb, plot_pixel (spriteCells_nodup ..),
    decide_eq_false (mt (mem_spriteCells ..).1 h), Bool.xor_false]

/-- VF is a flag, and it is set iff a plotted cell was 1. -/
theorem State.drawnAtI_flag : ∃ c : Bool, (s.drawnAtI x y n).reg VF = flagByte c ∧
    (c = true ↔ ∃ cx cy : Nat, s.Plots x y n cx cy ∧ pixel s.fb cx cy = true) := by
  refine ⟨_, s.reg_setReg_same VF _, (plot_hit (spriteCells_nodup ..) _).trans ?_⟩
  simp only [Prod.exists, mem_spriteCells]
  rfl

theorem State.drawnAtI_keepsRegsBut : KeepsRegsBut [VF] s (s.drawnAtI x y n) := s.setReg_keepsRegsBut VF _

end

/-- Settles O30: the check of the run comes first; the cells that a sprite plots are distinct, so each is flipped once
and its collision is with the cell as it was. -/
theorem drawSprite : Obligations.DrawSprite := by
  intro x y n s
  refine ⟨fun hin => ?drawn, fun hout => exec_drw_outside hout x y⟩
  case drawn =>
    obtain ⟨c, hflag, hc⟩ := s.drawnAtI_flag x y n
    refine ⟨_, exec_drw_inside hin x y, fun cx _ cy _ => ⟨s.drawnAtI_pixel_plotted x y n, s.drawnAtI_pixel_other x y n⟩,
      fun hhit => ?hit, fun hmiss => ?miss, rfl, State.advance_toNat _, s.drawnAtI_keepsRegsBut x y n,
      .of_takeParts rfl⟩
    case hit => rw [State.reg_advance, hflag, hc.2 hhit]; rfl
    case miss =>
      have hclear : c = false := by
        rw [← Bool.not_eq_true, hc]
        rintro ⟨cx, cy, hplots, hset⟩
        rw [hmiss cx cy hplots] at hset
        cases hset
      rw [State.reg_advance, hflag, hclear]
      rfl

/-- What a sprite plots is read from I, the registers and memory alone. -/
theorem State.plots_congr {s u : State} (hv : u.v = s.v) (hi : u.i = s.i) (hbyte : ∀ a : Nat, u.byte a = s.byte a)
    (x y : RegIx) (n : RowCount) (cx cy : Nat) : u.Plots x y n cx cy ↔ s.Plots x y n cx cy := by
  simp only [State.Plots, SpritePlots, State.base, State.reg, hv, hi, hbyte]

theorem flagByte_eq_one {c : Bool} : flagByte c = 1 ↔ c = true := by cases c <;> simp [flagByte]

/-- Settles O31: the second draw plots the same cells, each of which the first one flipped. -/
theorem drawingTwiceRestoresTheScreen : Obligations.DrawingTwiceRestoresTheScreen := by
  intro x y n s t u hdraw hfb hv hi hbyte
  by_cases hin : n.val = 0 ∨ s.base + n.val ≤ 0x1000
  · obtain rfl := Host.Outcome.next.inj ((exec_drw_inside hin x y).symm.trans hdraw)
    have hfb : u.fb = (s.drawnAtI x y n).fb := hfb
    have hinu : n.val = 0 ∨ u.base + n.val ≤ 0x1000 := by rwa [State.base, hi]
    have hplots := State.plots_congr hv hi hbyte x y n
    obtain ⟨c, hflag, hc⟩ := u.drawnAtI_flag x y n
    refine ⟨_, exec_drw_inside hinu x y, fun cx _ cy _ => ?restored, ?collision⟩
    case restored =>
      show pixel (u.drawnAtI x y n).fb cx cy = pixel s.fb cx cy
      by_cases h : s.Plots x y n cx cy
      · rw [u.drawnAtI_pixel_plotted x y n ((hplots cx cy).2 h), hfb, s.drawnAtI_pixel_plotted x y n h, Bool.not_not]
      · rw [u.drawnAtI_pixel_other x y n (mt (hplots cx cy).1 h), hfb, s.drawnAtI_pixel_other x y n h]
    case collision =>
      rw [State.reg_advance, hflag, flagByte_eq_one, hc]
      refine exists_congr fun cx => exists_congr fun cy => ?_
      rw [hplots cx cy]
      refine and_congr_right fun h => ?_
      rw [hfb, s.drawnAtI_pixel_plotted x y n h, Bool.not_eq_true']
  · cases (exec_drw_outside hin x y).symm.trans hdraw

/-! ### The flag in VF -/

/-- Settles O27: the five ALU forms write a flag byte to VF last, and DXYN writes one. -/
theorem flagWritersLeaveZeroOrOne : Obligations.FlagWritersLeaveZeroOrOne := by
  intro i s t hi h
  cases i with
  | addReg x y | sub x y | shr x y | subn x y | shl x y =>
    cases h
    rw [State.reg_advance, State.reg_setWithFlag, if_pos rfl]
    exact flagByte_eq_zero_or_one _
  | drw x y n =>
    by_cases hin : n.val = 0 ∨ s.base + n.val ≤ 0x1000
    · obtain rfl := Host.Outcome.next.inj ((exec_drw_inside hin x y).symm.trans h)
      obtain ⟨c, hflag, -⟩ := s.drawnAtI_flag x y n
      rw [State.reg_advance, hflag]
      exact flagByte_eq_zero_or_one c
    · cases (exec_drw_outside hin x y).symm.trans h
  | _ => cases hi

end Sys2Proof.Machine

/-! PROOFS. The sound timer and the index (spec/46_timers_memory.md R117 to R119). -/

namespace Sys2Proof.Machine

theorem exec_ldStVx (x : RegIx) (s : State) : exec (.ldStVx x) s = .next { s with st := s.reg x }.advance := rfl

/-- Settles O37: FX18 writes ST and advances. -/
theorem soundTimerSet : Obligations.SoundTimerSet := fun x s =>
  ⟨_, exec_ldStVx x s, rfl, State.advance_toNat _,
    .of_takeParts rfl⟩

theorem exec_addIVx (x : RegIx) (s : State) : exec (.addIVx x) s = .next { s with i := indexPlus s x }.advance := rfl

theorem exec_ldFVx (x : RegIx) (s : State) : exec (.ldFVx x) s = .next { s with i := glyphAddr s x }.advance := rfl

theorem indexPlus_toNat (s : State) (x : RegIx) : (indexPlus s x).toNat = (s.i.toNat + (s.reg x).toNat) % 65536 := by
  rw [indexPlus, BitVec.toNat_add, zext16_toNat (by decide)]

/-- The product of a byte and 5 fits a word. -/
theorem glyphAddr_toNat (s : State) (x : RegIx) : (glyphAddr s x).toNat = (s.reg x).toNat * 5 := by
  have hreg := (s.reg x).isLt
  rw [glyphAddr, BitVec.toNat_mul, zext16_toNat (by decide), show (5 : Word).toNat = 5 from rfl]
  omega

/-- Settles O38: both forms write I and advance. -/
theorem indexArithmetic : Obligations.IndexArithmetic := fun x s =>
  ⟨⟨_, exec_addIVx x s, indexPlus_toNat s x, State.advance_toNat _, .of_takeParts rfl⟩,
    ⟨_, exec_ldFVx x s, glyphAddr_toNat s x, State.advance_toNat _, .of_takeParts rfl⟩⟩

end Sys2Proof.Machine

/-! PROOFS. The bulk transfers (spec/46_timers_memory.md R121, R122). -/

namespace Sys2Proof.Machine

theorem exec_ldMemVx_inside {s : State} {x : RegIx} (h : s.base + x.val ≤ 0xFFF) :
    exec (.ldMemVx x) s = .next (s.setBytes s.base (s.regsTo x)).advance := (execLdMemVx_eq x s).trans (if_pos h)

theorem exec_ldMemVx_outside {s : State} {x : RegIx} (h : 0xFFF < s.base + x.val) :
    exec (.ldMemVx x) s = .fault (.outOfRange (max s.base 0x1000)) :=
  (execLdMemVx_eq x s).trans (if_neg (Nat.not_le.2 h))

theorem exec_ldVxMem_inside {s : State} {x : RegIx} (h : s.base + x.val ≤ 0xFFF) :
    exec (.ldVxMem x) s =
      .next (s.setRegsTo x ((List.range (x.val + 1)).map fun k => s.byte (s.base + k))).advance :=
  (execLdVxMem_eq x s).trans (if_pos h)

theorem exec_ldVxMem_outside {s : State} {x : RegIx} (h : 0xFFF < s.base + x.val) :
    exec (.ldVxMem x) s = .fault (.outOfRange (max s.base 0x1000)) :=
  (execLdVxMem_eq x s).trans (if_neg (Nat.not_le.2 h))

/-- The registers that FX55 stores stand in their order from I on. -/
theorem State.byte_setBytes_regsTo (s : State) {x j : RegIx} (hj : j ≤ x) :
    (s.setBytes s.base (s.regsTo x)).byte (s.base + j.val) = s.reg j := by
  have hlt : j.val < (s.regsTo x).length := by rw [State.regsTo_length]; exact Nat.lt_succ_of_le hj
  rw [State.byte_setBytes_inside _ _ _ hlt, State.regsTo_getElem]

/-- Settles O40: the bytes stored are V0..Vx, so every address but I..I+x is outside the run. -/
theorem bulkStore : Obligations.BulkStore := by
  intro x s
  refine ⟨fun hin => ?stored, exec_ldMemVx_outside⟩
  case stored =>
    have hother (a : Nat) (ha : ¬(s.base ≤ a ∧ a ≤ s.base + x.val)) :
        (s.setBytes s.base (s.regsTo x)).byte a = s.byte a :=
      s.byte_setBytes_outside (by rw [State.regsTo_length]; omega)
    exact ⟨_, exec_ldMemVx_inside hin, fun j hj => s.byte_setBytes_regsTo hj, hother,
      s.setBytes_advance_frame s.base (s.regsTo x)⟩

theorem State.withV_advance_onlyChanges (s : State) (v : Vector Byte 16) :
    OnlyChanges [.v, .pc] s { s with v := v }.advance := .of_takeParts rfl

theorem State.setRegsTo_advance_pcMoved (s : State) (x : RegIx) (bs : List Byte) :
    PcMoved 2 s (s.setRegsTo x bs).advance := by
  rw [PcMoved, State.advance_toNat, State.setRegsTo_pc]

/-- Settles O41: the bytes loaded are those at I..I+x, and no register above x takes one. -/
theorem bulkLoad : Obligations.BulkLoad := by
  intro x s
  refine ⟨fun hin => ?loaded, exec_ldVxMem_outside⟩
  case loaded =>
    refine ⟨_, exec_ldVxMem_inside hin, fun j hj => ?low, fun j hj => ?high, s.setRegsTo_advance_pcMoved x _,
      s.withV_advance_onlyChanges _⟩
    case low =>
      have hlt : j.val < x.val + 1 := Nat.lt_succ_of_le hj
      rw [State.reg_advance, State.reg_setRegsTo, if_pos hj]
      simp [hlt]
    case high => rw [State.reg_advance, State.reg_setRegsTo, if_neg (Fin.not_le.2 hj)]

/-- Settles O42: fetch reads the two bytes of memory that the store left, high byte first. -/
theorem storedBytesAreFetched : Obligations.StoredBytesAreFetched := by
  intro x j k s t u hstore hbyte hk hkx hpc
  by_cases hin : s.base + x.val ≤ 0xFFF
  · obtain rfl := Host.Outcome.next.inj ((exec_ldMemVx_inside hin).symm.trans hstore)
    have hkx' : k.val ≤ x.val := hkx
    have hstored {l : RegIx} (hl : l ≤ x) : u.byte (s.base + l.val) = s.reg l :=
      (hbyte _).trans (s.byte_setBytes_regsTo hl)
    have hj := hstored (l := j) (Fin.le_def.2 (by omega))
    have hk' := hstored hkx
    refine ⟨_, fetchWord_inside (by omega), ?_⟩
    rw [State.wordAt_toNat, hpc, hj, Nat.add_assoc, ← hk, hk']
  · cases (exec_ldMemVx_outside (Nat.lt_of_not_le hin)).symm.trans hstore

end Sys2Proof.Machine

/-! PROOFS. The host's commands (spec/60_exceptions.md R131, R132, R138, spec/70_reset_and_hazards.md R141 to R144). -/

namespace Sys2Proof.Machine

/-! ### Keys and reads -/

/-- Settles O53: the second write replaces the first by the value that was there. -/
theorem pressThenReleaseLeavesNoTrace : Obligations.PressThenReleaseLeavesNoTrace := by
  intro k s hup
  have hdown : command (.keyDown (k.val : Int)) s = .next ({ s with key := s.key.set k.val true }, .ok) :=
    setKey_of_key k true s
  have hrelease : command (.keyUp (k.val : Int)) { s with key := s.key.set k.val true } = .next (s, .ok) := by
    have hkey : (s.key.set k.val true).set k.val false = s.key := by
      rw [Vector.set_set, ← hup]
      exact Vector.set_getElem_self k.isLt
    rw [command, setKey_of_key, hkey]
  rw [hostRun_cons_next hdown, hostRun_cons_next hrelease]
  rfl

theorem snapshotCells_length (s : State) : (snapshotCells s).length = 2048 := by
  rw [snapshotCells, List.length_map, List.length_range]

/-- The cells stand row by row. -/
theorem snapshotCells_getElem? (s : State) {x y : Nat} (hx : x < 64) (hy : y < 32) :
    (snapshotCells s)[y * 64 + x]? = some (pixel s.fb x y) := by
  have hlt : y * 64 + x < 2048 := by omega
  have hcol : (y * 64 + x) % 64 = x := by omega
  have hrow : (y * 64 + x) / 64 = y := by omega
  simp [snapshotCells, hlt, hcol, hrow]

/-- Settles O59: the two reads answer the state they were given, and the clear writes DRAW. -/
theorem hostReadsScreenAndDrawFlag : Obligations.HostReadsScreenAndDrawFlag := fun s =>
  ⟨rfl, ⟨_, rfl, rfl, .of_takeParts rfl⟩,
    ⟨_, rfl, snapshotCells_length s, fun _ hx _ hy => snapshotCells_getElem? s hx hy⟩⟩

/-! ### Ticks -/

theorem State.ticked_onlyChanges (s : State) : OnlyChanges [.dt, .st] s s.ticked := .of_takeParts rfl

theorem toneFires_iff (s : State) : toneFires s = true ↔ s.st.toNat = 1 := by
  rw [toneFires, beq_iff_eq, ← BitVec.toNat_inj]
  rfl

theorem toneFires_eq (s : State) : toneFires s = decide (s.st.toNat = 1) :=
  Bool.eq_iff_iff.2 ((toneFires_iff s).trans decide_eq_true_iff.symm)

/-- Settles O54: each counter is lowered by its floored decrement. -/
theorem tickCountsDownAndMayEmitTheTone : Obligations.TickCountsDownAndMayEmitTheTone := fun s =>
  ⟨_, _, rfl, countDown_toNat s.dt, countDown_toNat s.st, toneFires_iff s, s.ticked_onlyChanges⟩

/-- Settles O55, by induction on the number of ticks: after the first one, the tick that will find ST at 1 is one
nearer. -/
theorem ticksEmitTheToneOnce : Obligations.TicksEmitTheToneOnce := by
  intro m
  induction m with
  | zero => exact fun s => ⟨s, rfl, rfl, rfl, .of_takeParts rfl⟩
  | succ m ih =>
    intro s
    obtain ⟨u, hrun, hdt, hst, hparts⟩ := ih s.ticked
    have hdt' : s.ticked.dt.toNat = s.dt.toNat - 1 := countDown_toNat s.dt
    have hst' : s.ticked.st.toNat = s.st.toNat - 1 := countDown_toNat s.st
    have htick : command .tick s = .next (s.ticked, .tone (toneFires s)) := rfl
    refine ⟨u, ?replies, by omega, by omega, (s.ticked_onlyChanges.trans hparts).mono (by simp)⟩
    have hlater (k : Nat) : s.ticked.st.toNat = k + 1 ↔ s.st.toNat = k + 1 + 1 := by omega
    rw [List.replicate_succ, hostRun_cons_next htick, hrun, List.range_succ_eq_map, toneFires_eq]
    simp only [Except.map, List.map_cons, List.map_map, Function.comp_def, hlater]

/-! ### RESET and LOAD -/

theorem command_reset (s : State) : command .reset s = .next (s.resetFrom, .ok) := rfl

/-- Settles O56: the state after RESET is `State.resetWith` of the block's FONT, but for the counter. -/
theorem resetCommandRestoresEveryField : Obligations.ResetCommandRestoresEveryField := by
  intro s
  have hregs (j : RegIx) : s.resetFrom.reg j = 0 := Vector.getElem_replicate j.isLt
  have hslots (j : Fin 16) : s.resetFrom.stack[j] = 0 := Vector.getElem_replicate j.isLt
  have hkeys (k : Fin 16) : s.resetFrom.key[k] = false := Vector.getElem_replicate k.isLt
  exact ⟨s.resetFrom, command_reset s, command_reset s.resetFrom, hregs, rfl, rfl, hslots, rfl, rfl, rfl, rfl, rfl,
    rfl, rfl, s.resetFrom_fontThenZero, fun x _ y _ => pixel_cleared x y, hkeys, rfl⟩

/-- Settles O57: RESET, first or later, leaves no listed byte under the block's own table. -/
theorem resetMemoryIsFontThenZero : Obligations.ResetMemoryIsFontThenZero := by
  refine ⟨fun s t h => ?_, fun font => ⟨rfl, rfl, State.resetWith_fontThenZero font⟩⟩
  cases (command_reset s).symm.trans h
  exact ⟨rfl, s.resetFrom_fontThenZero⟩

/-- Settles O58: the copy is a write of bytes on the state that RESET answers. -/
theorem loadCopiesTheImage : Obligations.LoadCopiesTheImage := by
  refine ⟨fun bytes s => ⟨fun hlen => ?copied, fun hlen => load_refused hlen s⟩, fun font c hc => ?beforeReset⟩
  case copied =>
    exact ⟨s.resetFrom, _, command_reset s, load_eq hlen s, s.resetFrom.setBytes_onlyChanges_mem 0x200 bytes,
      fun k hk => s.resetFrom.byte_setBytes_inside 0x200 bytes hk, fun a ha => s.resetFrom.byte_setBytes_outside ha⟩
  case beforeReset =>
    cases c with
    | reset | load => cases hc
    | cycle | tick | keyDown | keyUp | readDraw | clearDraw | snapshot => rfl

end Sys2Proof.Machine

/-! PROOFS. A fault repeats (spec/40_cycle.md R73), and who writes a register (spec/10_state.md R20). -/

namespace Sys2Proof.Machine

/-! ### What the commands besides RESET, LOAD and CYCLE write -/

/-- `t` is `s` but for the parts that the host's own commands write. -/
def DiffersInPeripherals (s t : State) : Prop :=
  ∃ (dt st : Byte) (key : Vector Bool 16) (draw : Bool), t = { s with dt := dt, st := st, key := key, draw := draw }

theorem DiffersInPeripherals.refl (s : State) : DiffersInPeripherals s s := ⟨s.dt, s.st, s.key, s.draw, rfl⟩

theorem DiffersInPeripherals.trans {s t u : State} (hst : DiffersInPeripherals s t) (htu : DiffersInPeripherals t u) :
    DiffersInPeripherals s u := by
  obtain ⟨_, _, _, _, rfl⟩ := hst
  obtain ⟨dt, st, key, draw, rfl⟩ := htu
  exact ⟨dt, st, key, draw, rfl⟩

theorem DiffersInPeripherals.onlyChanges {s t : State} (h : DiffersInPeripherals s t) :
    OnlyChanges [.dt, .st, .key, .draw] s t := by
  obtain ⟨dt, st, key, draw, rfl⟩ := h
  exact .of_takeParts rfl

/-- Such a command answers a state that differs in its parts alone, or it is a key command with a wrong index. -/
theorem command_peripheral {c : Command} (hkeeps : c.keepsProgram = true) (hcycle : ∀ b : Byte, c ≠ .cycle b)
    (s : State) :
    (∃ t r, command c s = .next (t, r) ∧ DiffersInPeripherals s t) ∨ ∃ f, command c s = .fault f := by
  have hkey (k : Int) (b : Bool) :
      (∃ t r, setKey k b s = .next (t, r) ∧ DiffersInPeripherals s t) ∨ ∃ f, setKey k b s = .fault f := by
    obtain ⟨j, -, h⟩ | ⟨-, h⟩ := setKey_cases k b s
    · exact .inl ⟨_, _, h, s.dt, s.st, s.key.set j.val b, s.draw, rfl⟩
    · exact .inr ⟨_, h⟩
  cases c with
  | reset | load => cases hkeeps
  | cycle b => exact absurd rfl (hcycle b)
  | tick => exact .inl ⟨_, _, rfl, countDown s.dt, countDown s.st, s.key, s.draw, rfl⟩
  | keyDown k => exact hkey k true
  | keyUp k => exact hkey k false
  | readDraw | snapshot => exact .inl ⟨_, _, rfl, .refl s⟩
  | clearDraw => exact .inl ⟨_, _, rfl, s.dt, s.st, s.key, false, rfl⟩

/-! ### The registers -/

/-- Settles O44: an instruction's change writes listed registers, a poll writes V[WAITX], and the other commands write
no register. -/
theorem registersChangeOnlyByTheirWriters : Obligations.RegistersChangeOnlyByTheirWriters := by
  refine ⟨fun i s t j h hj => (effect_of_exec h).reg_eq hj, fun s t j h hj => ?poll, fun c s t r j hc hb h => ?host⟩
  case poll =>
    obtain ⟨k, -, hnext⟩ | ⟨-, hnext⟩ := waitingCycle_cases s
    · cases hnext.symm.trans h
      exact (s.reg_setReg s.waitx (keyByte k) j).trans (if_neg hj)
    · cases hnext.symm.trans h
      rfl
  case host =>
    obtain ⟨t', r', hnext, _, _, _, _, rfl⟩ | ⟨f, hfault⟩ := command_peripheral hc hb s
    · cases hnext.symm.trans h
      rfl
    · cases hfault.symm.trans h

/-! ### A fault repeats -/

/-- A cycle's fault rests on PC, memory, I, SP and RUN alone. -/
theorem DiffersInPeripherals.cycleFaults {s t : State} (h : DiffersInPeripherals s t) {f : Fault}
    (hf : CycleFaults s f) : CycleFaults t f := by
  obtain ⟨dt, st, key, draw, rfl⟩ := h
  have hfetch : fetchInstr { s with dt := dt, st := st, key := key, draw := draw } = fetchInstr s :=
    fetchInstr_congr rfl rfl rfl
  rw [CycleFaults, hfetch]
  exact hf

/-- A command that keeps the program, given to a CPU that is stuck on a fault. -/
theorem command_of_cycleFaults {s : State} {f : Fault} (hf : CycleFaults s f) {c : Command}
    (hc : c.keepsProgram = true) :
    (∃ t r, command c s = .next (t, r) ∧ DiffersInPeripherals s t) ∨ ∃ g, command c s = .fault g := by
  by_cases hcycle : ∃ b : Byte, c = .cycle b
  · obtain ⟨b, rfl⟩ := hcycle
    exact .inr ⟨f, by rw [command, (cycle_fault_iff b s f).2 hf, withOk]⟩
  · exact command_peripheral hc (fun b e => hcycle ⟨b, e⟩) s

theorem hostRun_of_cycleFaults {f : Fault} (cs : List Command) (hcs : ∀ c ∈ cs, c.keepsProgram = true) {s : State}
    (hf : CycleFaults s f) : ∃ u rs, hostRun s cs = .ok (u, rs) ∧ DiffersInPeripherals s u := by
  induction cs generalizing s with
  | nil => exact ⟨s, [], rfl, .refl s⟩
  | cons c cs ih =>
    obtain ⟨hc, hcs⟩ := List.forall_mem_cons.1 hcs
    obtain ⟨t, r, hnext, hst⟩ | ⟨g, hfault⟩ := command_of_cycleFaults hf hc
    · obtain ⟨u, rs, hrun, htu⟩ := ih hcs (hst.cycleFaults hf)
      exact ⟨u, r :: rs, by rw [hostRun_cons_next hnext, hrun]; rfl, hst.trans htu⟩
    · obtain ⟨u, rs, hrun, hsu⟩ := ih hcs hf
      exact ⟨u, .fault g :: rs, by rw [hostRun_cons_fault hfault, hrun]; rfl, hsu⟩

/-- Settles O49, by induction on the commands: while the CPU is stuck no cycle goes on, and the other commands write
nothing that the fault rests on. -/
theorem faultRepeatsUntilResetOrLoad : Obligations.FaultRepeatsUntilResetOrLoad := by
  intro cs s r f hfault hcs
  have hf : CycleFaults s f := (cycle_fault_iff r s f).1 hfault
  obtain ⟨u, rs, hrun, hsu⟩ := hostRun_of_cycleFaults cs hcs hf
  exact ⟨u, rs, hrun, fun r' => (cycle_fault_iff r' u f).2 (hsu.cycleFaults hf), hsu.onlyChanges⟩

end Sys2Proof.Machine

/-! PROOFS. The invariant (spec/70_reset_and_hazards.md R151, spec/42_control_flow.md R80, spec/40_cycle.md R69). -/

namespace Sys2Proof.Machine

/-! ### Changes that keep it -/

/-- While the CPU runs, a change that leaves the stack, SP and RUN alone has only the PC bound and memory to keep. -/
theorem State.Inv.of_running {s t : State} (hinv : s.Inv) (hrun : t.run = .running) (hpc : t.pc.toNat ≤ 0x10FE)
    (hstack : t.stack = s.stack) (hsp : t.sp = s.sp) (hmem : Memory.wf t.font t.mem = true) : t.Inv where
  pcBound := hpc
  liveSlots j hj := hstack ▸ hinv.liveSlots j (hsp ▸ hj)
  memory := hmem
  waiting h := by cases hrun.symm.trans h

theorem State.advance_pc_le {s : State} (h : s.pc.toNat < 0xFFF) : s.advance.pc.toNat ≤ 0x10FE := by
  rw [State.advance_toNat]
  omega

theorem State.skipIf_pc_le {s : State} (h : s.pc.toNat < 0xFFF) (c : Bool) : (s.skipIf c).pc.toNat ≤ 0x10FE := by
  rw [State.skipIf_toNat]
  split <;> omega

theorem State.Inv.push_jump {s : State} (hinv : s.Inv) (hrun : s.run = .running) (hpc : s.pc.toNat < 0xFFF)
    (h : s.sp.val < 16) (nnn : Addr12) : ((s.push h s.pc).jump (zext16 nnn)).Inv where
  pcBound := by
    have hnnn := nnn.isLt
    rw [State.jump_pc, zext16_toNat (by decide)]
    omega
  liveSlots j hj := by
    have hj : j.val < s.sp.val + 1 := hj
    rw [State.jump_stack, State.push_slot]
    split
    · omega
    · exact hinv.liveSlots j (by omega)
  memory := hinv.memory
  waiting h := by cases hrun.symm.trans h

theorem State.Inv.dropTop_jump {s : State} (hinv : s.Inv) (hrun : s.run = .running) (h : 0 < s.sp.val) :
    (s.dropTop.jump (s.top h + 2)).Inv where
  pcBound := by
    have htop : (s.top h).toNat ≤ 0x0FFE := hinv.liveSlots ⟨s.sp.val - 1, by omega⟩ (Nat.sub_lt h Nat.one_pos)
    rw [State.jump_pc, BitVec.toNat_add, show (2 : Word).toNat = 2 from rfl]
    omega
  liveSlots j hj := hinv.liveSlots j (Nat.lt_of_lt_of_le hj (Nat.sub_le _ _))
  memory := hinv.memory
  waiting h := by cases hrun.symm.trans h

/-- Every change that the instruction at PC makes keeps it. -/
theorem State.Inv.of_effect {i : Instr} {s t : State} (hinv : s.Inv) (hrun : s.run = .running)
    (hfetch : fetchInstr s = .ok i) (h : Effect i s t) : t.Inv := by
  obtain ⟨hpc, -⟩ := fetchInstr_ok.1 hfetch
  cases h with
  | register | flagged | index | delay | sound | cleared | drawn | loaded =>
    exact hinv.of_running hrun (State.advance_pc_le hpc) rfl rfl hinv.memory
  | random x b => exact hinv.of_running hrun (State.advance_pc_le (s := s.setReg x b) hpc) rfl rfl hinv.memory
  | stored bytes _ hbytes =>
    exact hinv.of_running hrun (State.advance_pc_le hpc) rfl rfl (Memory.putRun_wf bytes hinv.memory hbytes)
  | skipped c =>
    have hskip := s.skipIf_pc_le hpc c
    cases c <;> exact hinv.of_running hrun hskip rfl rfl hinv.memory
  | jumped a _ ha => exact hinv.of_running hrun ha rfl rfl hinv.memory
  | called nnn hsp => exact hinv.push_jump hrun hpc hsp nnn
  | returned hsp => exact hinv.dropTop_jump hrun hsp
  | waits x hi =>
    exact ⟨hinv.pcBound, hinv.liveSlots, hinv.memory, fun _ => (fetchInstr_congr rfl rfl rfl).trans (hi ▸ hfetch)⟩

/-- So does a poll: PC names the FX0A that waits, so PC + 2 is within the bound. -/
theorem State.Inv.of_poll {s t : State} (hinv : s.Inv) (hrun : s.run = .waitingForKey) (h : waitingCycle s = .next t) :
    t.Inv := by
  obtain ⟨hpc, -⟩ := fetchInstr_ok.1 (hinv.waiting hrun)
  obtain ⟨k, -, hnext⟩ | ⟨-, hnext⟩ := waitingCycle_cases s
  · cases hnext.symm.trans h
    exact hinv.of_running rfl (State.advance_pc_le (s := s.setReg s.waitx (keyByte k)) hpc) rfl rfl hinv.memory
  · cases hnext.symm.trans h
    exact hinv

theorem State.Inv.of_cycle {r : Byte} {s t : State} (hinv : s.Inv) (h : cycle r s = .next t) : t.Inv := by
  obtain ⟨hrun, i, hfetch, hexec⟩ | ⟨hrun, hpoll⟩ := cycle_cases h
  · exact hinv.of_effect hrun hfetch (effect_of_executeWith hexec)
  · exact hinv.of_poll hrun hpoll

/-- Settles O47: a step is a cycle. -/
theorem stepKeepsTheInvariant : Obligations.StepKeepsTheInvariant := fun s _ hinv h =>
  hinv.of_cycle ((stepIsCycleWithTheFreeByte s).symm.trans h)

/-! ### Commands and runs -/

/-- No call is live after a reset, and memory has no listed byte. -/
theorem State.resetFrom_inv (s : State) : s.resetFrom.Inv where
  pcBound := show (0x200 : Word).toNat ≤ 0x10FE by decide
  liveSlots _ hj := absurd hj (Nat.not_lt_zero _)
  memory := rfl
  waiting := nofun

/-- Settles O46: the reset state is what RESET makes of itself. -/
theorem resetMeetsTheInvariant : Obligations.ResetMeetsTheInvariant := State.reset.resetFrom_inv

/-- An image is copied to addresses of MEM. -/
theorem load_inv {bytes : List Byte} {s t : State} {r : Reply} (h : load bytes s = .next (t, r)) : t.Inv := by
  by_cases hlen : bytes.length ≤ 0xE00
  · cases (load_eq hlen s).symm.trans h
    have hreset := s.resetFrom_inv
    have hmem := Memory.putRun_wf bytes (base := 0x200) hreset.memory (by simp only [Config.memSize]; omega)
    exact hreset.of_running rfl hreset.pcBound rfl rfl hmem
  · cases (load_refused (Nat.lt_of_not_le hlen) s).symm.trans h

theorem DiffersInPeripherals.inv {s t : State} (h : DiffersInPeripherals s t) (hinv : s.Inv) : t.Inv := by
  obtain ⟨dt, st, key, draw, rfl⟩ := h
  exact ⟨hinv.pcBound, hinv.liveSlots, hinv.memory, fun hrun =>
    (fetchInstr_congr rfl rfl rfl).trans (hinv.waiting hrun)⟩

theorem withOk_next {a : Result} {t : State} {r : Reply} (h : withOk a = .next (t, r)) : a = .next t := by
  cases a <;> cases h
  rfl

theorem State.Inv.of_command {c : Command} {s t : State} {r : Reply} (hinv : s.Inv) (h : command c s = .next (t, r)) :
    t.Inv := by
  by_cases hkeeps : c.keepsProgram = true ∧ ∀ b : Byte, c ≠ .cycle b
  · obtain ⟨t', r', hnext, hst⟩ | ⟨f, hfault⟩ := command_peripheral hkeeps.1 hkeeps.2 s
    · cases hnext.symm.trans h
      exact hst.inv hinv
    · cases hfault.symm.trans h
  · cases c with
    | reset =>
      cases h
      exact s.resetFrom_inv
    | load bytes => exact load_inv h
    | cycle b => exact hinv.of_cycle (withOk_next h)
    | _ => exact absurd ⟨rfl, nofun⟩ hkeeps

/-- A run that ends in a state either goes on from what its first command answers, or reports a fault and stays. -/
theorem hostRun_cons_ok {c : Command} {cs : List Command} {s u : State} {rs : List Reply}
    (h : hostRun s (c :: cs) = .ok (u, rs)) :
    ∃ (t : State) (rs' : List Reply), hostRun t cs = .ok (u, rs') ∧
      ((∃ r, command c s = .next (t, r)) ∨ t = s) := by
  have hrest {t : State} {r : Reply} (h : ((hostRun t cs).map fun p => (p.1, r :: p.2)) = .ok (u, rs)) :
      ∃ rs', hostRun t cs = .ok (u, rs') := by
    cases ht : hostRun t cs with
    | error e => rw [ht] at h; cases h
    | ok p => rw [ht] at h; cases h; exact ⟨p.2, rfl⟩
  cases hc : command c s with
  | next p =>
    obtain ⟨rs', ht⟩ := hrest ((hostRun_cons_next hc cs).symm.trans h)
    exact ⟨p.1, rs', ht, .inl ⟨p.2, rfl⟩⟩
  | fault f =>
    obtain ⟨rs', hs⟩ := hrest ((hostRun_cons_fault hc cs).symm.trans h)
    exact ⟨s, rs', hs, .inr rfl⟩
  | refused e => cases (hostRun_cons_refused hc cs).symm.trans h

/-- Settles O48, by induction on the commands. -/
theorem hostRunsKeepTheInvariant : Obligations.HostRunsKeepTheInvariant := by
  intro cs
  induction cs with
  | nil =>
    intro s u rs hinv h
    cases h
    exact hinv
  | cons c cs ih =>
    intro s u rs hinv h
    obtain ⟨t, rs', hrest, ⟨r, hnext⟩ | rfl⟩ := hostRun_cons_ok h
    · exact ih t u rs' (hinv.of_command hnext) hrest
    · exact ih t u rs' hinv hrest

end Sys2Proof.Machine

/-! PROOFS. Dead stack slots (spec/10_state.md R25). -/

namespace Sys2Proof.Machine

/-! ### A state with another stack -/

def State.withStack (s : State) (k : Vector Word 16) : State := { s with stack := k }

/-- An answer whose next state, if there is one, has another stack. -/
def withStackResult (k : Vector Word 16) : Result → Result
  | .next t    => .next (t.withStack k)
  | .fault f   => .fault f
  | .refused e => .refused e

theorem fetchInstr_withStack (s : State) (k : Vector Word 16) : fetchInstr (s.withStack k) = fetchInstr s :=
  fetchInstr_congr rfl rfl rfl

theorem waitingCycle_withStack (s : State) (k : Vector Word 16) :
    waitingCycle (s.withStack k) = withStackResult k (waitingCycle s) := by
  cases hkey : s.anyDown with
  | some j => rw [waitingCycle_pressed hkey, waitingCycle_pressed (s := s.withStack k) hkey]; rfl
  | none => rw [waitingCycle_allUp hkey, waitingCycle_allUp (s := s.withStack k) hkey]; rfl

theorem State.skipIf_withStack (s : State) (c : Bool) (k : Vector Word 16) :
    (s.withStack k).skipIf c = (s.skipIf c).withStack k := by
  cases c <;> rfl

/-- Answers that go on for as long as the same check passes, with states that differ in the stack, and else end in the
same fault. -/
theorem checked_withStack {p : Prop} [Decidable p] {t : State} {g : Fault} {a a' : Result} {k : Vector Word 16}
    (ha : a = if p then .next t else .fault g) (ha' : a' = if p then .next (t.withStack k) else .fault g) :
    a' = withStackResult k a := by
  subst ha ha'
  by_cases hp : p
  · rw [if_pos hp, if_pos hp]; rfl
  · rw [if_neg hp, if_neg hp]; rfl

/-- Every instruction but CALL and RET does the same whatever the stack holds. -/
theorem exec_withStack {i : Instr} (hcall : ∀ nnn : Addr12, i ≠ .call nnn) (hret : i ≠ .ret) (s : State)
    (k : Vector Word 16) : exec i (s.withStack k) = withStackResult k (exec i s) := by
  cases i with
  | call nnn => exact absurd rfl (hcall nnn)
  | ret => exact absurd rfl hret
  | drw x y n => exact checked_withStack (execDrw_eq x y n s) (execDrw_eq x y n (s.withStack k))
  | ldBVx x => exact checked_withStack (execLdBVx_eq x s) (execLdBVx_eq x (s.withStack k))
  | ldMemVx x => exact checked_withStack (execLdMemVx_eq x s) (execLdMemVx_eq x (s.withStack k))
  | ldVxMem x => exact checked_withStack (execLdVxMem_eq x s) (execLdVxMem_eq x (s.withStack k))
  | ldVxK x =>
    cases hkey : s.anyDown with
    | some j => rw [exec_ldVxK_pressed hkey, exec_ldVxK_pressed (s := s.withStack k) hkey]; rfl
    | none => rw [exec_ldVxK_allUp hkey, exec_ldVxK_allUp (s := s.withStack k) hkey]; rfl
  | seImm | sneImm | seReg | sneReg | skp | sknp =>
    exact congrArg Host.Outcome.next (s.skipIf_withStack _ k)
  | _ => rfl

theorem Effect.stack_eq {i : Instr} {s t : State} (h : Effect i s t) (hcall : ∀ nnn : Addr12, i ≠ .call nnn)
    (hret : i ≠ .ret) : t.stack = s.stack ∧ t.sp = s.sp := by
  cases h with
  | called nnn _ hi => exact absurd hi (hcall nnn)
  | returned _ hi => exact absurd hi hret
  | skipped c => cases c <;> exact ⟨rfl, rfl⟩
  | _ => exact ⟨rfl, rfl⟩

/-! ### Two stacks with the same live slots -/

/-- The slots below SP are the same in the stack `k`. -/
def State.SameLiveSlots (s : State) (k : Vector Word 16) : Prop := ∀ j : Fin 16, j.val < s.sp.val → k[j] = s.stack[j]

/-- An answer that leaves the stack and SP alone agrees with itself on another stack with the same live slots. -/
theorem resultsAgree_withStack {s : State} {k : Vector Word 16} (hlive : s.SameLiveSlots k) {a : Result}
    (hkeeps : ∀ t : State, a = .next t → t.stack = s.stack ∧ t.sp = s.sp) : ResultsAgree a (withStackResult k a) := by
  cases a with
  | next t =>
    obtain ⟨hstack, hsp⟩ := hkeeps t rfl
    exact ⟨rfl, fun j hj => (hlive j (hsp ▸ hj)).trans (hstack ▸ rfl)⟩
  | fault f => exact rfl
  | refused e => exact rfl

theorem call_resultsAgree {s : State} {k : Vector Word 16} (hlive : s.SameLiveSlots k) (nnn : Addr12) :
    ResultsAgree (exec (.call nnn) s) (exec (.call nnn) (s.withStack k)) := by
  by_cases hsp : s.sp.val < 16
  · rw [exec_call_lt hsp, exec_call_lt (s := s.withStack k) hsp]
    refine ⟨rfl, fun j hj => ?_⟩
    have hj : j.val < s.sp.val + 1 := hj
    have hslot : (if j.val = s.sp.val then s.pc else k[j]) = if j.val = s.sp.val then s.pc else s.stack[j] := by
      split
      · rfl
      · exact hlive j (by omega)
    exact ((s.withStack k).push_slot hsp s.pc j).trans (hslot.trans (s.push_slot hsp s.pc j).symm)
  · have hfull : s.sp.val = 16 := by omega
    rw [exec_call_full hfull, exec_call_full (s := s.withStack k) hfull]
    exact rfl

theorem ret_resultsAgree {s : State} {k : Vector Word 16} (hlive : s.SameLiveSlots k) :
    ResultsAgree (exec .ret s) (exec .ret (s.withStack k)) := by
  by_cases hsp : 0 < s.sp.val
  · have htop : (s.withStack k).top hsp = s.top hsp := hlive ⟨s.sp.val - 1, by omega⟩ (Nat.sub_lt hsp Nat.one_pos)
    rw [exec_ret_pos hsp, exec_ret_pos (s := s.withStack k) hsp, htop]
    exact ⟨rfl, fun j hj => hlive j (Nat.lt_of_lt_of_le hj (Nat.sub_le _ _))⟩
  · have hempty : s.sp.val = 0 := by omega
    rw [exec_ret_empty hempty, exec_ret_empty (s := s.withStack k) hempty]
    exact rfl

theorem exec_resultsAgree {s : State} {k : Vector Word 16} (hlive : s.SameLiveSlots k) (i : Instr) :
    ResultsAgree (exec i s) (exec i (s.withStack k)) := by
  by_cases hcall : ∃ nnn : Addr12, i = .call nnn
  · obtain ⟨nnn, rfl⟩ := hcall
    exact call_resultsAgree hlive nnn
  · by_cases hret : i = .ret
    · subst hret
      exact ret_resultsAgree hlive
    · have hcall := not_exists.1 hcall
      rw [exec_withStack hcall hret]
      exact resultsAgree_withStack hlive fun t h => (effect_of_exec h).stack_eq hcall hret

/-- Settles O50: fetch and a poll read no slot, CALL writes one that its SP makes live, and RET reads a live one. -/
theorem deadStackSlotsAreUnobservable : Obligations.DeadStackSlotsAreUnobservable := by
  intro s t ⟨ht, hlive⟩
  have hlive : s.SameLiveSlots t.stack := hlive
  have ht : t = s.withStack t.stack := ht
  generalize t.stack = k at ht hlive
  subst ht
  cases hrun : s.run with
  | running =>
    rw [step_running hrun, step_running (s := s.withStack k) hrun, fetchInstr_withStack]
    cases fetchInstr s with
    | error f => exact rfl
    | ok i => exact exec_resultsAgree hlive i
  | waitingForKey =>
    rw [step_waiting hrun, step_waiting (s := s.withStack k) hrun, waitingCycle_withStack]
    refine resultsAgree_withStack hlive fun t h => ?_
    obtain ⟨j, -, hnext⟩ | ⟨-, hnext⟩ := waitingCycle_cases s
    · cases hnext.symm.trans h
      exact ⟨rfl, rfl⟩
    · cases hnext.symm.trans h
      exact ⟨rfl, rfl⟩

end Sys2Proof.Machine
